-- ==== Sys2Proof/Word.lean ====
section
/-! DEFINITION. The widths of the machine (`00_scope.md` R6, R11, R13): what the spec treats as bits is
a bit vector, what it treats as an index is a `Fin`. -/

namespace Sys2Proof

/-- A byte: a general register, a timer, a memory cell (R6, R11). -/
abbrev Byte := BitVec 8

/-- Sixteen bits: `PC`, `I`, a call-stack entry, an instruction word (R6, R70). -/
abbrev Word := BitVec 16

/-- A nibble of an instruction word (R11, R71). -/
abbrev Nibble := BitVec 4

/-- The 12-bit address immediate `nnn` (R71). -/
abbrev Addr12 := BitVec 12

/-- The index of a general register, "always in [0,15]" (R20). -/
abbrev Reg := Fin 16

/-- The index of a key line, 0 to 15 (R36). -/
abbrev Key := Fin 16

end Sys2Proof
end

