-- ==== Sys2Proof/Config.lean ====
section
/-! DEFINITION. What an implementation fixes and what the spec leaves free (`00_scope.md` R6, R7, R41).
The values the spec chooses for the open parameters stand where a repair can reach them:
`Sys2Proof.strictN2` (Decode.lean) and `Sys2Proof.Machine.params` (Machine/Params.lean). -/

namespace Sys2Proof

/-- `BEEP_AT`: which timer tick raises the audio hook (R7, R183). -/
inductive BeepAt where
  /-- The tick that takes `ST` from 1 to 0 (the spec's choice, D18). -/
  | leaving1
  /-- The tick that takes `ST` from 2 to 1. -/
  | reaching1
deriving DecidableEq, Repr

/-- The named parameters of R7 that are values. -/
structure Config where
  /-- `FONT`: the 80 glyph bytes at 0x000 to 0x04F (R34). -/
  font : List Byte
  /-- `STRICT_N2`: whether nibble 2 of NOP, CLS and RET must be 0 (R77). -/
  strictN2 : Bool
  /-- `BEEP_AT` (R183). -/
  beepAt : BeepAt
  /-- `TIMER_HZ`: the conventional rate of the timer tick; no rule depends on it (R7, R184). -/
  timerHz : Nat
deriving DecidableEq, Repr

/-- `RND_SOURCE` (R7, R13 `draw8`, R121): the byte of the `k`-th draw.  It has no body, so nothing is known
of any draw; "a claim about a program must hold for every draw".  Assumption 1. -/
opaque Config.rndDraw : Nat → Byte

end Sys2Proof
end

