-- ==== Sys2Proof/Syntax.lean ====
section
/-! DEFINITION. The instructions: one constructor for each of the 35 rows of `30_encoding.md` R75. -/

namespace Sys2Proof

/-- The instruction set (R75).  A constructor carries the fields its row's format has (R72), and also the
bits the decoder ignores (`k`, nibble 2 of NOP, CLS and RET, R77; `y` of SHR and SHL, R80), so that an
instruction is exactly a legal word. -/
inductive Instr where
  /-- `0_00` NOP (R93); `k` is the ignored nibble 2. -/
  | nop (k : Nibble)
  /-- `0_E0` CLS (R150); `k` is the ignored nibble 2. -/
  | cls (k : Nibble)
  /-- `0_EE` RET (R94); `k` is the ignored nibble 2. -/
  | ret (k : Nibble)
  /-- `1nnn` JMP nnn (R95). -/
  | jmp (nnn : Addr12)
  /-- `2nnn` CALL nnn (R96). -/
  | call (nnn : Addr12)
  /-- `3xnn` SE Vx, nn (R98). -/
  | seVxNn (x : Reg) (nn : Byte)
  /-- `4xnn` SNE Vx, nn (R99). -/
  | sneVxNn (x : Reg) (nn : Byte)
  /-- `5xy0` SE Vx, Vy (R100). -/
  | seVxVy (x y : Reg)
  /-- `6xnn` LD Vx, nn (R110). -/
  | ldVxNn (x : Reg) (nn : Byte)
  /-- `7xnn` ADD Vx, nn (R111). -/
  | addVxNn (x : Reg) (nn : Byte)
  /-- `8xy0` LD Vx, Vy (R112). -/
  | ldVxVy (x y : Reg)
  /-- `8xy1` OR Vx, Vy (R113). -/
  | or (x y : Reg)
  /-- `8xy2` AND Vx, Vy (R114). -/
  | and (x y : Reg)
  /-- `8xy3` XOR Vx, Vy (R115). -/
  | xor (x y : Reg)
  /-- `8xy4` ADD Vx, Vy (R116). -/
  | addVxVy (x y : Reg)
  /-- `8xy5` SUB Vx, Vy (R117). -/
  | sub (x y : Reg)
  /-- `8xy6` SHR Vx (R119); `y` is ignored. -/
  | shr (x y : Reg)
  /-- `8xy7` SUBN Vx, Vy (R118). -/
  | subn (x y : Reg)
  /-- `8xyE` SHL Vx (R120); `y` is ignored. -/
  | shl (x y : Reg)
  /-- `9xy0` SNE Vx, Vy (R101). -/
  | sneVxVy (x y : Reg)
  /-- `Annn` LD I, nnn (R130). -/
  | ldINnn (nnn : Addr12)
  /-- `Bnnn` JMP V0, nnn (R97). -/
  | jmpV0 (nnn : Addr12)
  /-- `Cxnn` RND Vx, nn (R121). -/
  | rnd (x : Reg) (nn : Byte)
  /-- `Dxyn` DRW Vx, Vy, n (R151). -/
  | drw (x y : Reg) (n : Nibble)
  /-- `Ex9E` SKP Vx (R160). -/
  | skp (x : Reg)
  /-- `ExA1` SKNP Vx (R161). -/
  | sknp (x : Reg)
  /-- `Fx07` LD Vx, DT (R133). -/
  | ldVxDt (x : Reg)
  /-- `Fx0A` LD Vx, K (R162). -/
  | ldVxK (x : Reg)
  /-- `Fx15` LD DT, Vx (R134). -/
  | ldDtVx (x : Reg)
  /-- `Fx18` LD ST, Vx (R135). -/
  | ldStVx (x : Reg)
  /-- `Fx1E` ADD I, Vx (R131). -/
  | addIVx (x : Reg)
  /-- `Fx29` LD F, Vx (R132). -/
  | ldFVx (x : Reg)
  /-- `Fx33` BCD Vx (R140). -/
  | bcd (x : Reg)
  /-- `Fx55` STR Vx (R141). -/
  | str (x : Reg)
  /-- `Fx65` LDR Vx (R142). -/
  | ldr (x : Reg)
deriving DecidableEq, Repr

end Sys2Proof
end

