-- ==== Sys2Proof/WellFormed.lean ====
section
/-! DEFINITION. Which instructions are well formed.  Operand ranges are in the types; the one further
condition is the parameter `STRICT_N2` on the ignored nibble of the 0-family (`30_encoding.md` R77). -/

namespace Sys2Proof

/-- With `STRICT_N2` true, NOP, CLS and RET also require nibble 2 to be 0 (R7, R77); every other
instruction is well formed whatever its operands, since each field admits all its values (R71, R73). -/
def Instr.wellFormedWith (strict : Bool) : Instr → Bool
  | .nop k | .cls k | .ret k => !strict || k == 0
  | .jmp _ | .call _ | .ldINnn _ | .jmpV0 _ => true
  | .seVxNn _ _ | .sneVxNn _ _ | .ldVxNn _ _ | .addVxNn _ _ | .rnd _ _ => true
  | .seVxVy _ _ | .sneVxVy _ _ | .ldVxVy _ _ | .or _ _ | .and _ _ | .xor _ _ => true
  | .addVxVy _ _ | .sub _ _ | .shr _ _ | .subn _ _ | .shl _ _ => true
  | .drw _ _ _ => true
  | .skp _ | .sknp _ | .ldVxDt _ | .ldVxK _ | .ldDtVx _ | .ldStVx _ => true
  | .addIVx _ | .ldFVx _ | .bcd _ | .str _ | .ldr _ => true

end Sys2Proof
end

