-- ==== Sys2Proof/Decode.lean ====
section
/-! DEFINITION. The decoder and the encoder, both from the opcode table of `30_encoding.md` R75. -/

namespace Sys2Proof

/-- The value of `STRICT_N2` (R7, R77): false, so nibble 2 of NOP, CLS and RET is ignored.
UNVERIFIED: the default the spec chooses (D4); assumption 8; unsafe if the core is strict. -/
def strictN2 : Bool := false

/-- Well-formedness under the machine's own `STRICT_N2`. -/
abbrev Instr.WellFormed (i : Instr) : Prop := i.wellFormedWith strictN2 = true

/-! ### The fields of a word (R71) -/

/-- `x = op[11:8]`, a register index. -/
def fieldX (op : Word) : Reg := (op.extractLsb' 8 4).toFin

/-- `y = op[7:4]`, a register index. -/
def fieldY (op : Word) : Reg := (op.extractLsb' 4 4).toFin

/-- `n2 = op[11:8]`. -/
def fieldN2 (op : Word) : Nibble := op.extractLsb' 8 4

/-- `n = op[3:0]`. -/
def fieldN (op : Word) : Nibble := op.extractLsb' 0 4

/-- `nn = op[7:0]`. -/
def fieldNn (op : Word) : Byte := op.extractLsb' 0 8

/-- `nnn = op[11:0]`. -/
def fieldNnn (op : Word) : Addr12 := op.extractLsb' 0 12

/-! ### The opcode table -/

/-- One row of R75: the words with `op & mask = value`, and the instruction such a word is. -/
structure Row where
  mask : Word
  value : Word
  build : Word → Instr

/-- The mask of the three operand-less rows: nibble 2 is examined only under `STRICT_N2` (R77). -/
def zMask (strict : Bool) : Word := if strict then 0xFFFF else 0xF0FF

/-- The rows of major opcodes 0 to 7 (R75).  The patterns are UNVERIFIED: the spec takes them from
general knowledge (D3, G1); assumption 6; unsafe. -/
def rowsLow (strict : Bool) : List Row :=
  [ ⟨zMask strict, 0x0000, fun op => .nop (fieldN2 op)⟩,
    ⟨zMask strict, 0x00E0, fun op => .cls (fieldN2 op)⟩,
    ⟨zMask strict, 0x00EE, fun op => .ret (fieldN2 op)⟩,
    ⟨0xF000, 0x1000, fun op => .jmp (fieldNnn op)⟩,
    ⟨0xF000, 0x2000, fun op => .call (fieldNnn op)⟩,
    ⟨0xF000, 0x3000, fun op => .seVxNn (fieldX op) (fieldNn op)⟩,
    ⟨0xF000, 0x4000, fun op => .sneVxNn (fieldX op) (fieldNn op)⟩,
    ⟨0xF00F, 0x5000, fun op => .seVxVy (fieldX op) (fieldY op)⟩,
    ⟨0xF000, 0x6000, fun op => .ldVxNn (fieldX op) (fieldNn op)⟩,
    ⟨0xF000, 0x7000, fun op => .addVxNn (fieldX op) (fieldNn op)⟩ ]

/-- The rows of major opcode 8 (R75). -/
def rowsAlu : List Row :=
  [ ⟨0xF00F, 0x8000, fun op => .ldVxVy (fieldX op) (fieldY op)⟩,
    ⟨0xF00F, 0x8001, fun op => .or (fieldX op) (fieldY op)⟩,
    ⟨0xF00F, 0x8002, fun op => .and (fieldX op) (fieldY op)⟩,
    ⟨0xF00F, 0x8003, fun op => .xor (fieldX op) (fieldY op)⟩,
    ⟨0xF00F, 0x8004, fun op => .addVxVy (fieldX op) (fieldY op)⟩,
    ⟨0xF00F, 0x8005, fun op => .sub (fieldX op) (fieldY op)⟩,
    ⟨0xF00F, 0x8006, fun op => .shr (fieldX op) (fieldY op)⟩,
    ⟨0xF00F, 0x8007, fun op => .subn (fieldX op) (fieldY op)⟩,
    ⟨0xF00F, 0x800E, fun op => .shl (fieldX op) (fieldY op)⟩ ]

/-- The rows of major opcodes 9 to E (R75). -/
def rowsHigh : List Row :=
  [ ⟨0xF00F, 0x9000, fun op => .sneVxVy (fieldX op) (fieldY op)⟩,
    ⟨0xF000, 0xA000, fun op => .ldINnn (fieldNnn op)⟩,
    ⟨0xF000, 0xB000, fun op => .jmpV0 (fieldNnn op)⟩,
    ⟨0xF000, 0xC000, fun op => .rnd (fieldX op) (fieldNn op)⟩,
    ⟨0xF000, 0xD000, fun op => .drw (fieldX op) (fieldY op) (fieldN op)⟩,
    ⟨0xF0FF, 0xE09E, fun op => .skp (fieldX op)⟩,
    ⟨0xF0FF, 0xE0A1, fun op => .sknp (fieldX op)⟩ ]

/-- The rows of major opcode F (R75). -/
def rowsMisc : List Row :=
  [ ⟨0xF0FF, 0xF007, fun op => .ldVxDt (fieldX op)⟩,
    ⟨0xF0FF, 0xF00A, fun op => .ldVxK (fieldX op)⟩,
    ⟨0xF0FF, 0xF015, fun op => .ldDtVx (fieldX op)⟩,
    ⟨0xF0FF, 0xF018, fun op => .ldStVx (fieldX op)⟩,
    ⟨0xF0FF, 0xF01E, fun op => .addIVx (fieldX op)⟩,
    ⟨0xF0FF, 0xF029, fun op => .ldFVx (fieldX op)⟩,
    ⟨0xF0FF, 0xF033, fun op => .bcd (fieldX op)⟩,
    ⟨0xF0FF, 0xF055, fun op => .str (fieldX op)⟩,
    ⟨0xF0FF, 0xF065, fun op => .ldr (fieldX op)⟩ ]

/-- The complete opcode table (R75) under a given `STRICT_N2`. -/
def opcodeTable (strict : Bool) : List Row :=
  rowsLow strict ++ (rowsAlu ++ (rowsHigh ++ rowsMisc))

/-! ### Decoding -/

/-- "A word `op` selects the row of rule R75 for which `op & mask = match`" (R74); none where no row
matches (R78).  The rows are pairwise disjoint, so the order of testing does not matter. -/
def decodeWith (strict : Bool) (op : Word) : Option Instr :=
  ((opcodeTable strict).find? fun r => op &&& r.mask == r.value).map fun r => r.build op

/-- The machine's decoder of one word. -/
def decode (op : Word) : Option Instr := decodeWith strictN2 op

/-- Why the decoder gives no instruction. -/
inductive DecodeReject where
  /-- Fewer than the two bytes of a word (R70). -/
  | truncated
  /-- The word matches no row: `UnsupportedOpcode(op)` (R78, R173). -/
  | unsupportedOpcode (op : Word)
deriving DecidableEq, Repr

/-- The word of two consecutive bytes, the lower address first: big-endian (R51). -/
def wordOfBytes (hi lo : Byte) : Word := hi ++ lo

/-- Decoding a byte sequence: the instruction of its first two bytes and the bytes after it (R70). -/
def decodeBytes : List Byte → Except DecodeReject (Instr × List Byte)
  | hi :: lo :: rest =>
    match decode (wordOfBytes hi lo) with
    | some i => .ok (i, rest)
    | none => .error (.unsupportedOpcode (wordOfBytes hi lo))
  | _ => .error .truncated

/-- The two bytes of a word as memory holds them, the high byte at the lower address (R51). -/
def bytesOfWord (op : Word) : List Byte := [op.extractLsb' 8 8, op.extractLsb' 0 8]

/-- The low `nbits` bits of a number as one instruction word. -/
def tableWord (nbits w : Nat) : Word := BitVec.ofNat 16 (w % 2 ^ nbits)

/-- The instruction the decoder reads from a word numbered as `spec/opcode_table.json` numbers it (bit 0 the
least significant), laid out in bytes as the hardware stores it. -/
def decodeTableWord (nbits w : Nat) : Option Instr :=
  match decodeBytes (bytesOfWord (tableWord nbits w)) with
  | .ok (i, _) => some i
  | .error _ => none

/-! ### Encoding (R72) -/

/-- A register index as a nibble. -/
def regNibble (r : Reg) : Nibble := BitVec.ofFin r

/-- Format A: a major opcode and `nnn`. -/
def formatA (n1 : Nibble) (nnn : Addr12) : Word := n1 ++ nnn

/-- Format XB: a major opcode, `x` and `nn`. -/
def formatXB (n1 : Nibble) (x : Reg) (nn : Byte) : Word := n1 ++ (regNibble x ++ nn)

/-- Formats XY and XYN: a major opcode, `x`, `y` and nibble 4. -/
def formatXY (n1 : Nibble) (x y : Reg) (n4 : Nibble) : Word :=
  n1 ++ (regNibble x ++ (regNibble y ++ n4))

/-- Format Z: the ignored nibble 2 and the fixed low byte. -/
def formatZ (k : Nibble) (low : Byte) : Word := (0x0 : Nibble) ++ (k ++ low)

/-- The word of an instruction, from the patterns of R75. -/
def encode : Instr → Word
  | .nop k => formatZ k 0x00
  | .cls k => formatZ k 0xE0
  | .ret k => formatZ k 0xEE
  | .jmp nnn => formatA 0x1 nnn
  | .call nnn => formatA 0x2 nnn
  | .seVxNn x nn => formatXB 0x3 x nn
  | .sneVxNn x nn => formatXB 0x4 x nn
  | .seVxVy x y => formatXY 0x5 x y 0x0
  | .ldVxNn x nn => formatXB 0x6 x nn
  | .addVxNn x nn => formatXB 0x7 x nn
  | .ldVxVy x y => formatXY 0x8 x y 0x0
  | .or x y => formatXY 0x8 x y 0x1
  | .and x y => formatXY 0x8 x y 0x2
  | .xor x y => formatXY 0x8 x y 0x3
  | .addVxVy x y => formatXY 0x8 x y 0x4
  | .sub x y => formatXY 0x8 x y 0x5
  | .shr x y => formatXY 0x8 x y 0x6
  | .subn x y => formatXY 0x8 x y 0x7
  | .shl x y => formatXY 0x8 x y 0xE
  | .sneVxVy x y => formatXY 0x9 x y 0x0
  | .ldINnn nnn => formatA 0xA nnn
  | .jmpV0 nnn => formatA 0xB nnn
  | .rnd x nn => formatXB 0xC x nn
  | .drw x y n => formatXY 0xD x y n
  | .skp x => formatXB 0xE x 0x9E
  | .sknp x => formatXB 0xE x 0xA1
  | .ldVxDt x => formatXB 0xF x 0x07
  | .ldVxK x => formatXB 0xF x 0x0A
  | .ldDtVx x => formatXB 0xF x 0x15
  | .ldStVx x => formatXB 0xF x 0x18
  | .addIVx x => formatXB 0xF x 0x1E
  | .ldFVx x => formatXB 0xF x 0x29
  | .bcd x => formatXB 0xF x 0x33
  | .str x => formatXB 0xF x 0x55
  | .ldr x => formatXB 0xF x 0x65

/-- The bytes of an instruction as memory holds them. -/
def encodeBytes (i : Instr) : List Byte := bytesOfWord (encode i)

end Sys2Proof
end

