-- ==== Sys2Proof/Machine/State.lean ====
section
/-! DEFINITION. All the state the spec gives the machine (`10_state.md` R20 to R41), the host's side of it, and
the state after reset (R40). -/

namespace Sys2Proof.Machine

/-- The fault kinds of `60_exceptions.md` R171.  A fault is the result an event returns to the host, not a stop
of the machine: "the core recovers nothing internally" and goes on with the next event (R170, R179).  So no meaning
answers `Outcome.fault`: a faulting event answers the next state R178 describes, with the fault in `response` and
marked in `faults` (assumption 2; safe). -/
inductive Fault where
  /-- Raised by the host's `RegGet` and `RegSet` with an index above 15; carries the index (R172).  Safe: the spec's own. -/
  | invalidRegisterIndex (index : Nat)
  /-- Raised by the fetch, BCD, STR, LDR, DRW and the host's `Load`; carries the address, for `Load` the length (R174).
  Safe: the spec's own. -/
  | addressOutOfRange (addr : Nat)
  /-- Raised by CALL with 16 entries in use (R176).  Safe: the spec's own. -/
  | stackOverflow
  /-- Raised by RET with no entry in use (R176).  Safe: the spec's own. -/
  | stackUnderflow
  /-- Raised by the decode of a word that matches no row; carries the word (R173).  Safe: the spec's own. -/
  | unsupportedOpcode (op : Word)
  /-- Raised by SKP and SKNP with `V[x]` above 15; carries the value (R192).  Safe: the spec's own. -/
  | invalidKeyIndex (index : Nat)
deriving DecidableEq, Repr

/-- Why the model gives an instruction no meaning. -/
inductive Refusal where
  /-- Reserved for an arm of `exec` whose instruction has no meaning yet; no arm uses it.  Safe. -/
  | notModelled (mnemonic : String)
deriving DecidableEq, Repr

/-- A fault as it is handed to the host: its kind with its information and, for a fault of a `CpuTick`, the
address of the instruction (R171). -/
structure FaultReport where
  kind : Fault
  instr : Option Word
deriving DecidableEq, Repr

/-- The result of an event (R39a) and what a query returns (R187, R188). -/
inductive Response where
  /-- `Ok`. -/
  | ok
  /-- The event raised a fault (R170). -/
  | fault (report : FaultReport)
  /-- `RegGet` returned a register. -/
  | byte (b : Byte)
  /-- `PcGet` or `IGet` returned a register. -/
  | word (w : Word)
  /-- `PixelQuery` returned the buffer, row-major, origin top-left (R153). -/
  | pixels (buffer : List Bool)
deriving DecidableEq, Repr

/-- The events the host issues (R10). -/
inductive HostEvent where
  /-- One instruction (R90). -/
  | cpuTick
  /-- One count of the timers (R182). -/
  | timerTick
  /-- `KeySet(k, b)` (R186); `k` has 4 bits, so an index above 15 cannot be expressed. -/
  | keySet (k : Key) (b : Bool)
  /-- `PixelQuery` (R187). -/
  | pixelQuery
  /-- `Load(bytes)` (R206). -/
  | load (bytes : List Byte)
  /-- `Reset` (R200). -/
  | reset
  /-- `RegGet(i)` (R188). -/
  | regGet (index : Nat)
  /-- `RegSet(i, v)` (R188). -/
  | regSet (index : Nat) (value : Byte)
  /-- `PcGet` (R188). -/
  | pcGet
  /-- `PcSet(v)` (R188). -/
  | pcSet (value : Word)
  /-- `IGet` (R188). -/
  | iGet
deriving DecidableEq, Repr

/-- Main memory (R32): the cells that differ from their reset contents, by rising address.  What an unlisted
address reads as is `Memory.resetByte` (Machine/Params.lean); the canonical form is `Memory.wf` (Machine/Ops.lean). -/
abbrev Memory := List Host.Cell

/-- The display buffer: 32 rows of 64 pixels, row 0 at the top, column 0 at the left (R35). -/
abbrev Display := Vector (Vector Bool 64) 32

/-- The state of the machine. -/
structure State where
  /-- `V[0]` to `V[15]` (R20). -/
  v : Vector Byte 16
  /-- The program counter (R23). -/
  pc : Word
  /-- The address register (R27). -/
  i : Word
  /-- The number of call-stack entries in use, 0 to 16 (R28). -/
  sp : Fin 17
  /-- The call stack, `STACK[0]` to `STACK[15]` (R28). -/
  stack : Vector Word 16
  /-- The delay timer (R30). -/
  dt : Byte
  /-- The sound timer (R31). -/
  st : Byte
  /-- Main memory (R32). -/
  mem : Memory
  /-- The display buffer (R35). -/
  disp : Display
  /-- The key lines, true where pressed (R36). -/
  keys : Vector Bool 16
  /-- The model's own: how many random bytes have been drawn (R121).  Assumption 1. -/
  draws : Nat
  /-- The model's own: the host events still to come; with none listed the host issues `CpuTick` (R10, R41).
  Assumption 3. -/
  events : List HostEvent
  /-- Output: the result of the last event (R39a).  Assumption 4. -/
  response : Response
  /-- Output: the pulse of the last event (R39c, R183).  Assumption 4. -/
  beep : Bool
  /-- The model's own: the faults met so far, newest first (the modelling note of R170).  Assumption 4. -/
  faults : List FaultReport
deriving DecidableEq, Repr

/-- The state after `Reset` and after construction (R40, R200, R202): every register, timer, pixel, key and stack
entry 0, `PC` at 0x200, memory at its reset contents. -/
def State.reset : State where
  v := Vector.replicate 16 0
  pc := 0x200
  i := 0
  sp := 0
  stack := Vector.replicate 16 0
  dt := 0
  st := 0
  mem := []
  disp := Vector.replicate 32 (Vector.replicate 64 false)
  keys := Vector.replicate 16 false
  draws := 0
  events := []
  response := .ok
  beep := false
  faults := []

end Sys2Proof.Machine
end

