-- ==== Sys2Proof/Machine/Params.lean ====
section
/-! DEFINITION. The values of the open parameters (`00_scope.md` R7), each the spec's own default, and what
memory holds after reset. -/

namespace Sys2Proof.Machine

/-- The glyphs of the digits 0 to 7 (R34).  UNVERIFIED: the default the spec chooses (D6, G3); assumption 5; unsafe. -/
def glyphsLow : List Byte :=
  [0xF0, 0x90, 0x90, 0x90, 0xF0] ++ ([0x20, 0x60, 0x20, 0x20, 0x70] ++
  ([0xF0, 0x10, 0xF0, 0x80, 0xF0] ++ ([0xF0, 0x10, 0xF0, 0x10, 0xF0] ++
  ([0x90, 0x90, 0xF0, 0x10, 0x10] ++ ([0xF0, 0x80, 0xF0, 0x10, 0xF0] ++
  ([0xF0, 0x80, 0xF0, 0x90, 0xF0] ++ [0xF0, 0x10, 0x20, 0x40, 0x40]))))))

/-- The glyphs of the digits 8 to F (R34).  UNVERIFIED: the default the spec chooses (D6, G3); assumption 5; unsafe. -/
def glyphsHigh : List Byte :=
  [0xF0, 0x90, 0xF0, 0x90, 0xF0] ++ ([0xF0, 0x90, 0xF0, 0x10, 0xF0] ++
  ([0xF0, 0x90, 0xF0, 0x90, 0x90] ++ ([0xE0, 0x90, 0xE0, 0x90, 0xE0] ++
  ([0xF0, 0x80, 0x80, 0x80, 0xF0] ++ ([0xE0, 0x90, 0x90, 0x90, 0xE0] ++
  ([0xF0, 0x80, 0xF0, 0x80, 0xF0] ++ [0xF0, 0x80, 0xF0, 0x80, 0x80]))))))

/-- `FONT` (R7, R34): 80 bytes. -/
def fontTable : List Byte := glyphsLow ++ glyphsHigh

/-- The parameters of R7 at the spec's defaults: `FONT` D6, `STRICT_N2` D4, `BEEP_AT` D18, `TIMER_HZ` D19.
Assumptions 5, 8, 9, 30. -/
def params : Config where
  font := fontTable
  strictN2 := strictN2
  beepAt := .leaving1
  timerHz := 60

/-- The reset contents of memory, which is what an unlisted address reads as: `FONT` at 0x000 to 0x04F and 0
above (R40, R200). -/
def Memory.resetByte (a : Nat) : Byte := params.font.getD a 0

end Sys2Proof.Machine
end

