-- ==== Sys2Proof/Machine/Ops.lean ====
section
/-! DEFINITION. The named operations over registers, memory, the call stack and faults, which every meaning
is written from. -/

namespace Sys2Proof.Machine

/-! ### Registers (R13, R20, R24, R27, R30, R31) -/

/-- `V[x]`. -/
def State.reg (s : State) (x : Reg) : Byte := s.v.get x

/-- `V[x] <- b`.  No register is hardwired (R20). -/
def State.setReg (s : State) (x : Reg) (b : Byte) : State := { s with v := s.v.set x.val b x.isLt }

/-- `PC <- a`, any 16-bit value (R24). -/
def State.setPc (s : State) (a : Word) : State := { s with pc := a }

/-- `I <- a` (R27). -/
def State.setI (s : State) (a : Word) : State := { s with i := a }

/-- `DT <- b` (R30). -/
def State.setDt (s : State) (b : Byte) : State := { s with dt := b }

/-- `ST <- b` (R31). -/
def State.setSt (s : State) (b : Byte) : State := { s with st := b }

/-- `PC <- PC + 2` modulo 2^16: the fetch advance and the skip (R24, R91). -/
def State.advance (s : State) : State := s.setPc (s.pc + 2)

/-- `PC <- PC - 2`: the rewind of the key wait (R24, R162). -/
def State.rewind (s : State) : State := s.setPc (s.pc - 2)

/-- `if c then PC <- PC + 2` (R98). -/
def State.skipIf (s : State) (c : Bool) : State := if c then s.advance else s

/-- `V[k] <- b` for the bytes of a list, from `V[k]` upward (R142). -/
def State.setRegsFrom (s : State) (k : Nat) : List Byte → State
  | [] => s
  | b :: bs => State.setRegsFrom { s with v := s.v.setIfInBounds k b } (k + 1) bs

/-- `draw8()`: one fresh unconstrained byte (R13, R121), the free value of the draw counter.  Assumption 1. -/
def State.draw8 (s : State) : Byte × State :=
  (Config.rndDraw s.draws, { s with draws := s.draws + 1 })

/-! ### Memory cells (R32) -/

/-- The byte at an address: the listed one, or else the reset contents. -/
def Memory.read : Memory → Nat → Byte
  | [], a => Memory.resetByte a
  | c :: m, a => if c.1 = a then c.2 else Memory.read m a

/-- Storing a byte in canonical form: the cell goes to its place by address, and a byte equal to the reset
contents is not listed. -/
def Memory.write : Memory → Nat → Byte → Memory
  | [], a, b => if b = Memory.resetByte a then [] else [(a, b)]
  | c :: m, a, b =>
    if c.1 < a then c :: Memory.write m a b
    else if c.1 = a then (if b = Memory.resetByte a then m else (a, b) :: m)
    else if b = Memory.resetByte a then c :: m else (a, b) :: c :: m

/-- The canonical form: addresses strictly rising and inside the space, no cell equal to what an unlisted address
reads as. -/
abbrev Memory.wf (m : Memory) : Prop :=
  m.Pairwise (fun c d => c.1 < d.1) ∧ ∀ c ∈ m, c.1 ≤ 0xFFF ∧ c.2 ≠ Memory.resetByte c.1

/-! ### The access primitives (R52 to R54) -/

/-- `MemRead(addr, 1)` (R52). -/
def State.memRead1 (s : State) (addr : Nat) : Except Fault Byte :=
  if addr > 0xFFF then .error (.addressOutOfRange addr) else .ok (s.mem.read addr)

/-- `MemRead(addr, 2)`, big-endian, the whole word checked first (R51, R53). -/
def State.memRead2 (s : State) (addr : Nat) : Except Fault Word :=
  if addr + 1 > 0xFFF then .error (.addressOutOfRange addr)
  else .ok (wordOfBytes (s.mem.read addr) (s.mem.read (addr + 1)))

/-- `MemWrite(addr, 1, b)` (R54). -/
def State.memWrite1 (s : State) (addr : Nat) (b : Byte) : Except Fault State :=
  if addr > 0xFFF then .error (.addressOutOfRange addr)
  else .ok { s with mem := s.mem.write addr b }

/-- The check of a whole range of `len` bytes at `base`, in exact arithmetic, which faults with the last address
(R55, R143, D15); an empty range needs none (R151). -/
def checkRange (base len : Nat) : Except Fault Unit :=
  if len > 0 ∧ base + len - 1 > 0xFFF then .error (.addressOutOfRange (base + len - 1)) else .ok ()

/-- The reads of the `len` bytes at `base` in ascending order (R65, R142). -/
def State.readFrom (s : State) (base : Nat) : Nat → Except Fault (List Byte)
  | 0 => .ok []
  | len + 1 =>
    match s.memRead1 base with
    | .error f => .error f
    | .ok b =>
      match s.readFrom (base + 1) len with
      | .error f => .error f
      | .ok bs => .ok (b :: bs)

/-- The writes of a list of bytes at `base` in ascending order (R140, R141, R206). -/
def State.writeFrom (s : State) (base : Nat) : List Byte → Except Fault State
  | [] => .ok s
  | b :: bs =>
    match s.memWrite1 base b with
    | .error f => .error f
    | .ok t => State.writeFrom t (base + 1) bs

/-- A block read: the range is checked before the first access (R55). -/
def State.loadBlock (s : State) (base len : Nat) : Except Fault (List Byte) :=
  match checkRange base len with
  | .error f => .error f
  | .ok _ => s.readFrom base len

/-- A block write: the range is checked before the first access, so nothing is written where it fails (R55). -/
def State.storeBlock (s : State) (base : Nat) (bytes : List Byte) : Except Fault State :=
  match checkRange base bytes.length with
  | .error f => .error f
  | .ok _ => s.writeFrom base bytes

/-! ### The call stack (R28, D11) -/

/-- A push: `STACK[SP] <- a`, then `SP <- SP + 1`; `StackOverflow` when 16 entries are in use (R96). -/
def State.push (s : State) (a : Word) : Except Fault State :=
  if h : s.sp.val < 16 then
    .ok { s with stack := s.stack.set s.sp.val a h, sp := ⟨s.sp.val + 1, by omega⟩ }
  else .error .stackOverflow

/-- The pop of RET: `SP <- SP - 1`, then `PC <- STACK[SP]`; `StackUnderflow` when none is in use (R94).  The popped
entry stays in `STACK`. -/
def State.popPc (s : State) : Except Fault State :=
  if h : s.sp.val = 0 then .error .stackUnderflow
  else
    .ok { s with
      sp := ⟨s.sp.val - 1, by omega⟩
      pc := s.stack.get ⟨s.sp.val - 1, by omega⟩ }

/-! ### Faults: what an event that raises one leaves (R170, R178, R179)

There is no return from a fault: "there is no trap-return instruction and nothing to restore" (R179).  The host
goes on with its next event. -/

/-- The code of a fault kind (R171, D10). -/
def Fault.code : Fault → Nat
  | .invalidRegisterIndex _ => 1
  | .addressOutOfRange _ => 2
  | .stackOverflow => 3
  | .stackUnderflow => 4
  | .unsupportedOpcode _ => 5
  | .invalidKeyIndex _ => 6

/-- Handing a fault to the host: it is the event's result and is marked on the run; nothing else changes, so the
core is as the raising phase left it (R178).  Assumptions 2, 4, 12. -/
def State.raise (s : State) (f : Fault) (instr : Option Word) : State :=
  { s with response := .fault ⟨f, instr⟩, faults := ⟨f, instr⟩ :: s.faults }

/-- A fault of the decode or execute phase: `PC` is the fetched address plus 2, so the instruction is at
`PC - 2` (R171, R178). -/
def State.raiseExec (s : State) (f : Fault) : State := s.raise f (some (s.pc - 2))

/-- How an execute phase ends: with its own next state, or with its fault raised on the state it started from,
since "every execute rule makes all its checks before its first write" (R92, D9). -/
def State.settle (s : State) : Except Fault State → Host.Outcome State Fault Refusal
  | .ok t => .next t
  | .error f => .next (s.raiseExec f)

/-! ### Events -/

/-- Before an event: its result is `Ok` and no pulse is raised unless the event says otherwise (R39). -/
def State.clearOutputs (s : State) : State := { s with response := .ok, beep := false }

/-- The fetch phase's read of the word at `PC` (R91): `AddressOutOfRange(PC)` when `PC >= 0x0FFF`. -/
def State.fetch (s : State) : Except Fault Word := s.memRead2 s.pc.toNat

/-- The level output `sound_active = (ST != 0)` (R39b, R183). -/
def State.soundActive (s : State) : Bool := s.st != 0

end Sys2Proof.Machine
end

