-- ==== Sys2Proof/Machine/Flags.lean ====
section
/-! DEFINITION. The results of the flag-setting operations and the flag each leaves in `VF` (`10_state.md` R26,
`41_alu.md` R116 to R123): computed exactly on natural numbers, then narrowed. -/

namespace Sys2Proof.Machine

/-- `VF`, the register `V[15]` (R21). -/
def flagReg : Reg := 15

/-- `(a + b) mod 256` (R122). -/
def sumByte (a b : Byte) : Byte := BitVec.ofNat 8 (a.toNat + b.toNat)

/-- The carry of ADD Vx,Vy: `a + b >= 256` (R116). -/
def carryFlag (a b : Byte) : Bool := decide (256 ≤ a.toNat + b.toNat)

/-- `(a - b) mod 256` (R117): `a - b` if `a >= b`, else `a - b + 256`. -/
def diffByte (a b : Byte) : Byte := BitVec.ofNat 8 (a.toNat + 256 - b.toNat)

/-- The flag of SUB: 1 if there is no borrow, `a >= b` (R117). -/
def noBorrowFlag (a b : Byte) : Bool := decide (b.toNat ≤ a.toNat)

/-- `a >> 1`, logical (R119). -/
def shiftRight (a : Byte) : Byte := BitVec.ofNat 8 (a.toNat / 2)

/-- The bit shifted out to the right, `a[0]` (R119). -/
def bitOutRight (a : Byte) : Bool := a.getLsbD 0

/-- `(a << 1) mod 256` (R120). -/
def shiftLeft (a : Byte) : Byte := BitVec.ofNat 8 (a.toNat * 2)

/-- The bit shifted out to the left, `a[7]` (R120). -/
def bitOutLeft (a : Byte) : Bool := a.getLsbD 7

/-- The flag as the whole register's value, 0 or 1, never merged (R21). -/
def flagByte (f : Bool) : Byte := if f then 1 else 0

/-- `V[15] <- flag`. -/
def State.setFlag (s : State) (f : Bool) : State := s.setReg flagReg (flagByte f)

/-- First the result to `V[x]`, then the flag to `V[15]`, so that with `x = 15` the flag remains (R123, D12). -/
def State.setWithFlag (s : State) (x : Reg) (result : Byte) (f : Bool) : State :=
  (s.setReg x result).setFlag f

end Sys2Proof.Machine
end

