-- ==== Sys2Proof/Machine/Alu.lean ====
section
/-! DEFINITION. The register and ALU instructions (`41_alu.md` R110 to R121).  None touches anything but the
general registers. -/

namespace Sys2Proof.Machine

/-- LD Vx,nn (R110). -/
def execLdVxNn (x : Reg) (nn : Byte) (s : State) : Host.Outcome State Fault Refusal :=
  .next (s.setReg x nn)

/-- ADD Vx,nn: wrapping, "no flag touched" (R111). -/
def execAddVxNn (x : Reg) (nn : Byte) (s : State) : Host.Outcome State Fault Refusal :=
  .next (s.setReg x (sumByte (s.reg x) nn))

/-- LD Vx,Vy (R112). -/
def execLdVxVy (x y : Reg) (s : State) : Host.Outcome State Fault Refusal :=
  .next (s.setReg x (s.reg y))

/-- OR Vx,Vy; `VF` is not written (R113, D14). -/
def execOr (x y : Reg) (s : State) : Host.Outcome State Fault Refusal :=
  .next (s.setReg x (s.reg x ||| s.reg y))

/-- AND Vx,Vy; `VF` is not written (R114, D2, D14). -/
def execAnd (x y : Reg) (s : State) : Host.Outcome State Fault Refusal :=
  .next (s.setReg x (s.reg x &&& s.reg y))

/-- XOR Vx,Vy; `VF` is not written (R115, D2, D14). -/
def execXor (x y : Reg) (s : State) : Host.Outcome State Fault Refusal :=
  .next (s.setReg x (s.reg x ^^^ s.reg y))

/-- ADD Vx,Vy (R116). -/
def execAddVxVy (x y : Reg) (s : State) : Host.Outcome State Fault Refusal :=
  .next (s.setWithFlag x (sumByte (s.reg x) (s.reg y)) (carryFlag (s.reg x) (s.reg y)))

/-- SUB Vx,Vy: the flag is 1 for no borrow (R117). -/
def execSub (x y : Reg) (s : State) : Host.Outcome State Fault Refusal :=
  .next (s.setWithFlag x (diffByte (s.reg x) (s.reg y)) (noBorrowFlag (s.reg x) (s.reg y)))

/-- SUBN Vx,Vy: the operands exchanged, the destination still `V[x]` (R118). -/
def execSubn (x y : Reg) (s : State) : Host.Outcome State Fault Refusal :=
  .next (s.setWithFlag x (diffByte (s.reg y) (s.reg x)) (noBorrowFlag (s.reg y) (s.reg x)))

/-- SHR Vx: `V[y]` is not read (R119, D13). -/
def execShr (x _y : Reg) (s : State) : Host.Outcome State Fault Refusal :=
  .next (s.setWithFlag x (shiftRight (s.reg x)) (bitOutRight (s.reg x)))

/-- SHL Vx: `V[y]` is not read (R120, D13). -/
def execShl (x _y : Reg) (s : State) : Host.Outcome State Fault Refusal :=
  .next (s.setWithFlag x (shiftLeft (s.reg x)) (bitOutLeft (s.reg x)))

/-- RND Vx,nn: a fresh draw AND `nn` (R121). -/
def execRnd (x : Reg) (nn : Byte) (s : State) : Host.Outcome State Fault Refusal :=
  .next (s.draw8.2.setReg x (s.draw8.1 &&& nn))

end Sys2Proof.Machine
end

