-- ==== Sys2Proof/Machine/Operands.lean ====
section
/-! DEFINITION. The operand forms (`30_encoding.md` R73) that are not a plain register read. -/

namespace Sys2Proof.Machine

/-- `zext_16(nnn)` (R73). -/
def addrOperand (nnn : Addr12) : Word := nnn.setWidth 16

/-- The jump target `(V[0] + nnn) & 0x0FFF`: the exact sum, masked to 12 bits (R97, D7). -/
def jumpTarget (v0 : Byte) (nnn : Addr12) : Word := BitVec.ofNat 16 ((v0.toNat + nnn.toNat) % 0x1000)

/-- The glyph address `V[x] * 5`, the whole register multiplied (R132, D25). -/
def glyphAddress (b : Byte) : Word := BitVec.ofNat 16 (b.toNat * 5)

/-- `(I + V[x]) mod 65536` (R131). -/
def indexSum (i : Word) (b : Byte) : Word := BitVec.ofNat 16 (i.toNat + b.toNat)

/-- `V[0]` to `V[x]`, in order (R141). -/
def State.regsThrough (s : State) (x : Reg) : List Byte := s.v.toList.take (x.val + 1)

/-- The decimal digits of a byte, hundreds first (R140). -/
def bcdDigits (b : Byte) : List Byte :=
  [BitVec.ofNat 8 (b.toNat / 100), BitVec.ofNat 8 (b.toNat / 10 % 10), BitVec.ofNat 8 (b.toNat % 10)]

/-- The base address of BCD, STR, LDR and DRW: `I` as an exact natural number (R143). -/
def State.base (s : State) : Nat := s.i.toNat

/-- A register's value as a key index, `InvalidKeyIndex` above 15 (R160, D17). -/
def keyIndex (b : Byte) : Except Fault Key :=
  if h : b.toNat < 16 then .ok ⟨b.toNat, h⟩ else .error (.invalidKeyIndex b.toNat)

/-- `KEY[k]`. -/
def State.key (s : State) (k : Key) : Bool := s.keys.get k

/-- The priority encoder: the least key that is down, if any is (R162, R163). -/
def State.lowestKey (s : State) : Option Key := (List.finRange 16).find? fun k => s.key k

end Sys2Proof.Machine
end

