-- ==== Sys2Proof/Machine/Control.lean ====
section
/-! DEFINITION. NOP, RET, CALL, the jumps and the register skips (`40_cycle_and_control.md` R93 to R101).  Every
meaning starts from the state the fetch phase left: `PC` is the fetched address plus 2 (R91). -/

namespace Sys2Proof.Machine

/-- NOP "does nothing"; nibble 2 is ignored (R77, R93). -/
def execNop (_k : Nibble) (s : State) : Host.Outcome State Fault Refusal := .next s

/-- RET: `PC <- pop stack` (R94). -/
def execRet (_k : Nibble) (s : State) : Host.Outcome State Fault Refusal := s.settle s.popPc

/-- JMP nnn (R95). -/
def execJmp (nnn : Addr12) (s : State) : Host.Outcome State Fault Refusal :=
  .next (s.setPc (addrOperand nnn))

/-- CALL nnn: push the advanced `PC`, then jump (R96). -/
def execCall (nnn : Addr12) (s : State) : Host.Outcome State Fault Refusal :=
  s.settle ((s.push s.pc).map fun t => t.setPc (addrOperand nnn))

/-- JMP V0+nnn (R97). -/
def execJmpV0 (nnn : Addr12) (s : State) : Host.Outcome State Fault Refusal :=
  .next (s.setPc (jumpTarget (s.reg 0) nnn))

/-- SE Vx,nn (R98). -/
def execSeVxNn (x : Reg) (nn : Byte) (s : State) : Host.Outcome State Fault Refusal :=
  .next (s.skipIf (s.reg x == nn))

/-- SNE Vx,nn (R99). -/
def execSneVxNn (x : Reg) (nn : Byte) (s : State) : Host.Outcome State Fault Refusal :=
  .next (s.skipIf (s.reg x != nn))

/-- SE Vx,Vy (R100). -/
def execSeVxVy (x y : Reg) (s : State) : Host.Outcome State Fault Refusal :=
  .next (s.skipIf (s.reg x == s.reg y))

/-- SNE Vx,Vy (R101). -/
def execSneVxVy (x y : Reg) (s : State) : Host.Outcome State Fault Refusal :=
  .next (s.skipIf (s.reg x != s.reg y))

end Sys2Proof.Machine
end

