-- ==== Sys2Proof/Machine/Index.lean ====
section
/-! DEFINITION. The address register and the timers as instructions see them (`42_index_and_timers.md` R130 to
R135).  None accesses memory, writes `VF` as a flag, changes `PC` or can fault. -/

namespace Sys2Proof.Machine

/-- LD I,nnn (R130). -/
def execLdINnn (nnn : Addr12) (s : State) : Host.Outcome State Fault Refusal :=
  .next (s.setI (addrOperand nnn))

/-- ADD I,Vx: wrapping at 16 bits, no flag, no fault (R131). -/
def execAddIVx (x : Reg) (s : State) : Host.Outcome State Fault Refusal :=
  .next (s.setI (indexSum s.i (s.reg x)))

/-- LD F,Vx: `I <- V[x] * 5` (R132). -/
def execLdFVx (x : Reg) (s : State) : Host.Outcome State Fault Refusal :=
  .next (s.setI (glyphAddress (s.reg x)))

/-- LD Vx,DT (R133). -/
def execLdVxDt (x : Reg) (s : State) : Host.Outcome State Fault Refusal := .next (s.setReg x s.dt)

/-- LD DT,Vx (R134). -/
def execLdDtVx (x : Reg) (s : State) : Host.Outcome State Fault Refusal := .next (s.setDt (s.reg x))

/-- LD ST,Vx (R135). -/
def execLdStVx (x : Reg) (s : State) : Host.Outcome State Fault Refusal := .next (s.setSt (s.reg x))

end Sys2Proof.Machine
end

