-- ==== Sys2Proof/Machine/Keypad.lean ====
section
/-! DEFINITION. The keypad instructions (`45_keypad.md` R160 to R162). -/

namespace Sys2Proof.Machine

/-- SKP Vx: skip if the key whose index is `V[x]` is down (R160). -/
def execSkp (x : Reg) (s : State) : Host.Outcome State Fault Refusal :=
  s.settle ((keyIndex (s.reg x)).map fun k => s.skipIf (s.key k))

/-- SKNP Vx: skip if it is not down (R161). -/
def execSknp (x : Reg) (s : State) : Host.Outcome State Fault Refusal :=
  s.settle ((keyIndex (s.reg x)).map fun k => s.skipIf (!s.key k))

/-- LD Vx,K: the least key that is down to `V[x]`; with none down `PC` is rewound, so that the next tick fetches the
same word (R162). -/
def execLdVxK (x : Reg) (s : State) : Host.Outcome State Fault Refusal :=
  match s.lowestKey with
  | some k => .next (s.setReg x (BitVec.ofNat 8 k.val))
  | none => .next s.rewind

end Sys2Proof.Machine
end

