-- ==== Sys2Proof/Machine/MemOps.lean ====
section
/-! DEFINITION. BCD, STR and LDR (`43_memory_ops.md` R140 to R143): register-indirect through `I`, the whole range
checked first, `I` unchanged. -/

namespace Sys2Proof.Machine

/-- BCD Vx: hundreds, tens and ones at `I`, `I + 1`, `I + 2` (R140). -/
def execBcd (x : Reg) (s : State) : Host.Outcome State Fault Refusal :=
  s.settle (s.storeBlock s.base (bcdDigits (s.reg x)))

/-- STR Vx: `V[0]` to `V[x]` to memory at `I` (R141). -/
def execStr (x : Reg) (s : State) : Host.Outcome State Fault Refusal :=
  s.settle (s.storeBlock s.base (s.regsThrough x))

/-- LDR Vx: `V[0]` to `V[x]` from memory at `I` (R142). -/
def execLdr (x : Reg) (s : State) : Host.Outcome State Fault Refusal :=
  s.settle ((s.loadBlock s.base (x.val + 1)).map fun bytes => s.setRegsFrom 0 bytes)

end Sys2Proof.Machine
end

