-- ==== Sys2Proof/Machine/Sprite.lean ====
section
/-! DEFINITION. CLS, DRW and the sprite DMA controller (`44_display.md` R150 to R153). -/

namespace Sys2Proof.Machine

/-- `DISP[row][col]` (R35). -/
def Display.pixel (d : Display) (row : Fin 32) (col : Fin 64) : Bool := (d.get row).get col

/-- `DISP[row][col] <- b`. -/
def Display.setPixel (d : Display) (row : Fin 32) (col : Fin 64) (b : Bool) : Display :=
  d.set row.val ((d.get row).set col.val b col.isLt) row.isLt

/-- The display all dark (R150). -/
def blankDisplay : Display := Vector.replicate 32 (Vector.replicate 64 false)

/-- The linear buffer of the host's query: pixel (`col`, `row`) is element `row * 64 + col` (R153). -/
def Display.linear (d : Display) : List Bool := d.toList.flatMap fun row => row.toList

/-- The row a sprite line lands on, `(py + r) mod 32` (R151). -/
def spriteRow (py : Byte) (r : Nat) : Fin 32 := ⟨(py.toNat + r) % 32, Nat.mod_lt _ (by decide)⟩

/-- The column a sprite bit lands on, `(px + c) mod 64` (R151). -/
def spriteCol (px : Byte) (c : Nat) : Fin 64 := ⟨(px.toNat + c) % 64, Nat.mod_lt _ (by decide)⟩

/-- What a draw is in the middle of: the buffer so far and whether a lit pixel has been turned off. -/
structure Drawing where
  disp : Display
  collision : Bool
deriving DecidableEq, Repr

/-- One sprite bit: a collision where a set bit meets a lit pixel; the pixel is exclusive-ored with the bit (R151). -/
def Drawing.plot (g : Drawing) (row : Fin 32) (col : Fin 64) (bit : Bool) : Drawing where
  disp := g.disp.setPixel row col (g.disp.pixel row col ^^ bit)
  collision := g.collision || (bit && g.disp.pixel row col)

/-- One sprite line: the 8 bits of a byte, the most significant leftmost (R151). -/
def Drawing.line (g : Drawing) (px py : Byte) (r : Nat) (b : Byte) : Drawing :=
  (List.range 8).foldl
    (fun g c => g.plot (spriteRow py r) (spriteCol px c) (b.getLsbD (7 - c))) g

/-- The sprite lines from line `r` on, in ascending order (R151). -/
def Drawing.lines (g : Drawing) (px py : Byte) (r : Nat) : List Byte → Drawing
  | [] => g
  | b :: bs => Drawing.lines (g.line px py r b) px py (r + 1) bs

/-- The whole sprite on a buffer, with no collision to begin with (R151). -/
def drawSprite (d : Display) (px py : Byte) (sprite : List Byte) : Drawing :=
  Drawing.lines ⟨d, false⟩ px py 0 sprite

/-- CLS: all pixels 0; `VF` is not written (R150). -/
def execCls (_k : Nibble) (s : State) : Host.Outcome State Fault Refusal :=
  .next { s with disp := blankDisplay }

/-- A drawn sprite put back into the state: the buffer, then `V[15] <- collision`, once (R151). -/
def State.setDrawing (s : State) (g : Drawing) : State :=
  State.setFlag { s with disp := g.disp } g.collision

/-- DRW Vx,Vy,n: the `n` sprite bytes at `I`, the coordinates read before anything is written (R151). -/
def execDrw (x y : Reg) (n : Nibble) (s : State) : Host.Outcome State Fault Refusal :=
  s.settle ((s.loadBlock s.base n.toNat).map fun sprite =>
    s.setDrawing (drawSprite s.disp (s.reg x) (s.reg y) sprite))

end Sys2Proof.Machine
end

