-- ==== Sys2Proof/Machine/Events.lean ====
section
/-! DEFINITION. The atomic events of the host (`00_scope.md` R10), the instruction tick among them (`40_cycle_and_control.md`
R90 to R92, `60_exceptions.md` R182 to R188, `70_reset_and_hazards.md` R200, R206). -/

namespace Sys2Proof.Machine

/-! ### The instruction tick -/

/-- The decode and execute phases, from the state the fetch phase left (R92): `UnsupportedOpcode(op)` when no row
matches (R173). -/
def decodeAndExec (op : Word) (s : State) : Host.Outcome State Fault Refusal :=
  match decode op with
  | some i => exec i s
  | none => .next (s.raiseExec (.unsupportedOpcode op))

/-- `CpuTick` (R90): fetch, advance `PC`, decode, execute.  A fetch fault leaves all state unchanged, and its
instruction's address is `PC` (R91, R171, D8). -/
def cpuTick (s : State) : Host.Outcome State Fault Refusal :=
  match s.fetch with
  | .ok op => decodeAndExec op s.advance
  | .error f => .next (s.raise f (some s.pc))

/-! ### The timers (R182, R183) -/

/-- One count of a timer: "never decremented below zero". -/
def countDown (b : Byte) : Byte := if b = 0 then 0 else b - 1

/-- The condition of the audio hook on the value `ST` had before the tick, under a given `BEEP_AT` (R183). -/
def beepCondition (at' : BeepAt) (st0 : Byte) : Bool :=
  match at' with
  | .leaving1 => st0 == 1
  | .reaching1 => st0 == 2

/-- `TimerTick` (R182). -/
def timerTick (s : State) : State :=
  { s with
    dt := countDown s.dt
    st := countDown s.st
    beep := beepCondition params.beepAt s.st }

/-! ### The host's ports -/

/-- An event that answers a value (R187, R188). -/
def State.answer (s : State) (r : Response) : State := { s with response := r }

/-- `KeySet(k, b)` (R186). -/
def keySet (k : Key) (b : Bool) (s : State) : State := { s with keys := s.keys.set k.val b k.isLt }

/-- `PixelQuery` (R187). -/
def pixelQuery (s : State) : State := s.answer (.pixels s.disp.linear)

/-- The event a port raises a fault in changes nothing, and no instruction is named (R171, R178). -/
def State.settlePort (s : State) : Except Fault State → State
  | .ok t => t
  | .error f => s.raise f none

/-- `Load(bytes)`: rejected with the length when longer than 3584 bytes, else written at 0x200 upward (R206, D21). -/
def load (bytes : List Byte) (s : State) : State :=
  s.settlePort
    (if bytes.length > 3584 then .error (.addressOutOfRange bytes.length)
     else s.writeFrom 0x200 bytes)

/-- `Reset` (R200): every piece of the core's state at its reset value, the program erased (R201).  What is not the
core's, the draw counter, the events to come and the marks of the run, stays.  Assumption 29. -/
def hostReset (s : State) : State :=
  { State.reset with
    draws := s.draws
    events := s.events
    faults := s.faults }

/-- A register index of the port: `InvalidRegisterIndex` above 15 (R188). -/
def regIndex (n : Nat) : Except Fault Reg :=
  if h : n < 16 then .ok ⟨n, h⟩ else .error (.invalidRegisterIndex n)

/-- `RegGet(i)` (R188). -/
def regGet (n : Nat) (s : State) : State :=
  s.settlePort ((regIndex n).map fun x => s.answer (.byte (s.reg x)))

/-- `RegSet(i, v)` (R188). -/
def regSet (n : Nat) (b : Byte) (s : State) : State :=
  s.settlePort ((regIndex n).map fun x => s.setReg x b)

/-- `PcGet` (R188). -/
def pcGet (s : State) : State := s.answer (.word s.pc)

/-- `PcSet(v)`: any 16-bit value, unmasked (R188, D22). -/
def pcSet (a : Word) (s : State) : State := s.setPc a

/-- `IGet` (R188). -/
def iGet (s : State) : State := s.answer (.word s.i)

/-! ### One event -/

/-- What an event does.  Every event is enabled in every state (R9, `93_implementation_defined.md` U9). -/
def runEvent (e : HostEvent) (s : State) : Host.Outcome State Fault Refusal :=
  match e with
  | .cpuTick => cpuTick s
  | .timerTick => .next (timerTick s)
  | .keySet k b => .next (keySet k b s)
  | .pixelQuery => .next (pixelQuery s)
  | .load bytes => .next (load bytes s)
  | .reset => .next (hostReset s)
  | .regGet n => .next (regGet n s)
  | .regSet n b => .next (regSet n b s)
  | .pcGet => .next (pcGet s)
  | .pcSet a => .next (pcSet a s)
  | .iGet => .next (iGet s)

/-- The event the host issues next, with `CpuTick` where none is listed.  Assumption 3. -/
def State.nextEvent (s : State) : HostEvent := s.events.headD .cpuTick

/-- The state an event starts from: the event taken off the list, the outputs cleared. -/
def State.beginEvent (s : State) : State := { s.clearOutputs with events := s.events.tail }

/-- Storing the two bytes of a word at an address, for an address whose word lies in memory. -/
def State.placeWord (s : State) (addr : Nat) (op : Word) : State :=
  match s.storeBlock addr (bytesOfWord op) with
  | .ok t => t
  | .error _ => s

/-- The address of the next fetch, or the reset vector where `PC` holds an address no word can be fetched from. -/
def State.placeAddress (s : State) : Word := if s.pc.toNat + 1 ≤ 0xFFF then s.pc else 0x200

/-- The state whose next event is a tick that fetches this word.  Assumption 28. -/
def State.placeNext (s : State) (op : Word) : State :=
  { (s.setPc s.placeAddress).placeWord s.placeAddress.toNat op with events := [] }

end Sys2Proof.Machine
end

