-- ==== Sys2Proof/Machine/Step.lean ====
section
/-! DEFINITION. One step: the next event of the host (`00_scope.md` R8, R10), and where the host of this package places
an instruction to be fetched next. -/

namespace Sys2Proof.Machine

/-- One step is one atomic event (R8, R10).  It always answers a next state: the core has one run state and a fault is
an event's result, not a stop (R9, R170). -/
def step (s : State) : Host.Outcome State Fault Refusal := runEvent s.nextEvent s.beginEvent

/-- `s` with the given instruction word stored where the next step fetches, and that step a `CpuTick`.  Assumption 28. -/
def State.withFetchWord (s : State) (nbits w : Nat) : State := s.placeNext (tableWord nbits w)

end Sys2Proof.Machine
end

