-- ==== Sys2Proof/Safety.lean ====
section
/-! DEFINITION. The terms claims about the machine are stated in: when two states agree on a part, what an instruction
may write, a fault on the run, the invariants, and what a sprite covers. -/

namespace Sys2Proof.Machine

/-! ### Parts of the state and frames -/

/-- The parts of the state beside the general registers. -/
inductive Part where
  | pc | i | call | dt | st | mem | screen | keys | draws | host
deriving DecidableEq, Repr

/-- Two states agree on a part: on memory by every byte read, on the screen by every pixel read. -/
def Part.Same (p : Part) (s t : State) : Prop :=
  match p with
  | .pc => t.pc = s.pc
  | .i => t.i = s.i
  | .call => t.sp = s.sp ∧ t.stack = s.stack
  | .dt => t.dt = s.dt
  | .st => t.st = s.st
  | .mem => ∀ a, t.mem.read a = s.mem.read a
  | .screen => ∀ row col, t.disp.pixel row col = s.disp.pixel row col
  | .keys => t.keys = s.keys
  | .draws => t.draws = s.draws
  | .host => t.events = s.events ∧ t.response = s.response ∧ t.beep = s.beep ∧ t.faults = s.faults

/-- From `s` to `t` no general register changed but those listed, and no other part but those listed. -/
def Frame (regs : List Reg) (parts : List Part) (s t : State) : Prop :=
  (∀ r, r ∉ regs → t.reg r = s.reg r) ∧ ∀ p, p ∉ parts → p.Same s t

/-- The whole core is the same: every piece of state of `10_state.md` R40. -/
def CoreEq (s t : State) : Prop :=
  t.v = s.v ∧ t.pc = s.pc ∧ t.i = s.i ∧ t.sp = s.sp ∧ t.stack = s.stack ∧ t.dt = s.dt ∧ t.st = s.st ∧
    t.mem = s.mem ∧ t.disp = s.disp ∧ t.keys = s.keys

/-- The same core, the same draws and the same host events to come: what a step may depend on (R39, R41). -/
def SameInputs (s t : State) : Prop := CoreEq s t ∧ t.draws = s.draws ∧ t.events = s.events

/-! ### Faults and safe runs -/

/-- From `s` to `t` a fault was handed to the host and nothing else happened (R170, R178). -/
def Faulted (f : Fault) (instr : Option Word) (s t : State) : Prop :=
  CoreEq s t ∧ t.draws = s.draws ∧ t.events = s.events ∧ t.beep = s.beep ∧
    t.response = .fault ⟨f, instr⟩ ∧ t.faults = ⟨f, instr⟩ :: s.faults

/-- A run of `k` steps from `s` that meets no fault: "no fault occurred" as a premise of claims (R170). -/
def SafeRun (k : Nat) (s : State) : Prop :=
  ∃ t, Sys2Proof.core.run k s = .next t ∧ t.faults = s.faults

/-- The execute faults an instruction can raise: "no instruction has two possible execute faults" (R177). -/
def mayRaise : Instr → Fault → Prop
  | .call _, f => f = .stackOverflow
  | .ret _, f => f = .stackUnderflow
  | .bcd _, f | .str _, f | .ldr _, f | .drw _ _ _, f => ∃ a, f = .addressOutOfRange a ∧ 0xFFF < a
  | .skp _, f | .sknp _, f => ∃ k, f = .invalidKeyIndex k ∧ 15 < k
  | .nop _, _ | .cls _, _ | .jmp _, _ | .jmpV0 _, _ | .ldINnn _, _ => False
  | .seVxNn _ _, _ | .sneVxNn _ _, _ | .seVxVy _ _, _ | .sneVxVy _ _, _ => False
  | .ldVxNn _ _, _ | .addVxNn _ _, _ | .ldVxVy _ _, _ | .rnd _ _, _ => False
  | .or _ _, _ | .and _ _, _ | .xor _ _, _ | .addVxVy _ _, _ | .sub _ _, _ => False
  | .shr _ _, _ | .subn _ _, _ | .shl _ _, _ => False
  | .ldVxDt _, _ | .ldVxK _, _ | .ldDtVx _, _ | .ldStVx _, _ | .addIVx _, _ | .ldFVx _, _ => False

/-! ### What an instruction may write -/

/-- The registers an instruction writes, the flag included (R22, R26); LD Vx,K only when a key is down. -/
def regsWritten : Instr → List Reg
  | .ldVxNn x _ | .addVxNn x _ | .ldVxVy x _ | .or x _ | .and x _ | .xor x _ | .rnd x _ => [x]
  | .ldVxDt x | .ldVxK x => [x]
  | .addVxVy x _ | .sub x _ | .subn x _ | .shr x _ | .shl x _ => [x, flagReg]
  | .drw _ _ _ => [flagReg]
  | .ldr x => (List.finRange 16).filter fun r => r ≤ x
  | .nop _ | .cls _ | .ret _ | .jmp _ | .call _ | .jmpV0 _ | .ldINnn _ => []
  | .seVxNn _ _ | .sneVxNn _ _ | .seVxVy _ _ | .sneVxVy _ _ | .skp _ | .sknp _ => []
  | .ldDtVx _ | .ldStVx _ | .addIVx _ | .ldFVx _ | .bcd _ | .str _ => []

/-- The other parts an instruction writes on its own (R24, R27 to R31, R35, R36, R58); the host's part only by a
fault. -/
def partsWritten : Instr → List Part
  | .jmp _ | .jmpV0 _ => [.pc]
  | .seVxNn _ _ | .sneVxNn _ _ | .seVxVy _ _ | .sneVxVy _ _ | .ldVxK _ => [.pc]
  | .skp _ | .sknp _ => [.pc, .host]
  | .call _ | .ret _ => [.pc, .call, .host]
  | .cls _ => [.screen]
  | .drw _ _ _ => [.screen, .host]
  | .bcd _ | .str _ => [.mem, .host]
  | .ldr _ => [.host]
  | .ldINnn _ | .addIVx _ | .ldFVx _ => [.i]
  | .ldDtVx _ => [.dt]
  | .ldStVx _ => [.st]
  | .rnd _ _ => [.draws]
  | .nop _ | .ldVxNn _ _ | .addVxNn _ _ | .ldVxVy _ _ | .or _ _ | .and _ _ | .xor _ _ => []
  | .addVxVy _ _ | .sub _ _ | .subn _ _ | .shr _ _ | .shl _ _ | .ldVxDt _ => []

/-- The register a host event writes: `RegSet`'s, if its index names one (R188).  `Reset` and a tick are not described
here. -/
def eventRegs : HostEvent → List Reg
  | .regSet n _ => if h : n < 16 then [⟨n, h⟩] else []
  | .cpuTick | .timerTick | .keySet _ _ | .pixelQuery | .load _ | .reset => []
  | .regGet _ | .pcGet | .pcSet _ | .iGet => []

/-- The other parts a host event writes beside its result (R66, R182, R186 to R188). -/
def eventParts : HostEvent → List Part
  | .timerTick => [.dt, .st]
  | .keySet _ _ => [.keys]
  | .load _ => [.mem]
  | .pcSet _ => [.pc]
  | .cpuTick | .pixelQuery | .reset | .regGet _ | .regSet _ _ | .pcGet | .iGet => []

/-! ### Encodings -/

/-- Every word with `op & mask = value` decodes to the instruction the fields of that word give (R74, R75). -/
def Encodes (mask value : Word) (build : Word → Instr) : Prop :=
  ∀ op : Word, op &&& mask = value → decode op = some (build op)

/-! ### Invariants -/

/-- Memory is in canonical form, so equal memories are equal data. -/
def MemoryCanonical (s : State) : Prop := Memory.wf s.mem

/-- The consequence of R25: without `PcSet`, `PC` stays in 0x0000 to 0x1002 and every stacked address in 0x0000 to
0x1000. -/
def PcInReach (s : State) : Prop :=
  s.pc.toNat ≤ 0x1002 ∧ (∀ j : Fin 16, (s.stack.get j).toNat ≤ 0x1000) ∧
    ∀ e ∈ s.events, ∀ a, e ≠ HostEvent.pcSet a

/-- Every piece of state at the value of the table of R40. -/
def ResetValues (t : State) : Prop :=
  (∀ x, t.reg x = 0) ∧ t.pc = 0x0200 ∧ t.i = 0 ∧ t.sp = 0 ∧ (∀ j : Fin 16, t.stack.get j = 0) ∧
    t.dt = 0 ∧ t.st = 0 ∧
    (∀ a, a < 80 → t.mem.read a = fontTable.getD a 0) ∧ (∀ a, 80 ≤ a → t.mem.read a = 0) ∧
    (∀ row col, t.disp.pixel row col = false) ∧ (∀ k, t.key k = false) ∧
    t.soundActive = false ∧ t.beep = false

/-! ### Sprites -/

/-- A sprite bit that is 1 lands on this pixel: bit `7 - c` of sprite byte `r`, at column `(px + c) mod 64` and row
`(py + r) mod 32` (R151). -/
def SpriteLights (s : State) (px py : Byte) (n : Nat) (row : Fin 32) (col : Fin 64) : Prop :=
  ∃ r c, r < n ∧ c < 8 ∧ row.val = (py.toNat + r) % 32 ∧ col.val = (px.toNat + c) % 64 ∧
    (s.mem.read (s.base + r)).getLsbD (7 - c) = true

end Sys2Proof.Machine
end

