-- ==== Sys2Proof/Certificates/Slice0/Obligations.lean ====
section
/-! DEFINITION. The statements for the provers.  An instruction's statement is about `exec`, which starts from the state
the fetch phase left: `PC` is the fetched address plus 2 (`40_cycle_and_control.md` R91).  Its conclusion is that `exec`
answers a next state, what that state holds, and its frame; where the spec's rule gives the encoding, so does the
statement. -/

open Sys2Proof Sys2Proof.Machine

/-! ### The tick -/

/-- R90 to R92: when the host issues a `CpuTick`, `PC` is below 0x0FFF and the big-endian word at `PC` decodes to `i`,
the step is `exec i` from the state with `PC` advanced by 2, the event taken off the host's list and the outputs
cleared.  The event list and the cleared outputs are the model's own (assumptions 3, 4). -/
def Obligations.StepRunsDecodedInstruction : Prop :=
  ∀ (s : State) (i : Instr),
    s.nextEvent = .cpuTick → s.pc.toNat < 0xFFF →
    decode (s.mem.read s.pc.toNat ++ s.mem.read (s.pc.toNat + 1)) = some i → i.WellFormed →
    step s =
      exec i { s with
        pc := s.pc + 2
        events := s.events.tail
        response := .ok
        beep := false }

/-- R173, R178: a fetched word that matches no row raises `UnsupportedOpcode(op)` with `PC` advanced and nothing else
of the core changed (the spec's choices D9 and D10, assumptions 12 and 13); the step answers a next state (assumption 2); the
event list and the outputs in the state are the model's own (assumptions 3, 4). -/
def Obligations.IllegalWordFaultsAndAdvances : Prop :=
  ∀ (s : State) (op : Word),
    s.nextEvent = .cpuTick → s.pc.toNat < 0xFFF →
    op = s.mem.read s.pc.toNat ++ s.mem.read (s.pc.toNat + 1) → decode op = none →
    ∃ t, step s = .next t ∧ t.pc = s.pc + 2 ∧
      t.response = .fault ⟨.unsupportedOpcode op, some s.pc⟩ ∧
      t.faults = ⟨.unsupportedOpcode op, some s.pc⟩ :: s.faults ∧
      t.events = s.events.tail ∧ t.beep = false ∧ Frame [] [.pc, .host] s t

/-- R91, R178: a tick whose `PC` is 0x0FFF or more raises `AddressOutOfRange(PC)` and leaves all of the core unchanged,
`PC` included (the spec's choice D8, assumption 11; what the fault carries is D10, assumption 13;
the event list and the outputs in the state are the model's own, assumptions 3, 4). -/
def Obligations.FetchFaultChangesNothing : Prop :=
  ∀ s : State, s.nextEvent = .cpuTick → 0xFFF ≤ s.pc.toNat →
    ∃ t, step s = .next t ∧ CoreEq s t ∧
      t.response = .fault ⟨.addressOutOfRange s.pc.toNat, some s.pc⟩ ∧
      t.faults = ⟨.addressOutOfRange s.pc.toNat, some s.pc⟩ :: s.faults ∧
      t.events = s.events.tail ∧ t.beep = false ∧ t.draws = s.draws

/-- `93_implementation_defined.md` U9 and R9: the core is never stuck.  Every event is enabled in every state, and the
step answers a next state (that a fault is a next state is assumption 2). -/
def Obligations.EveryStepAnswersNext : Prop := ∀ s : State, ∃ t, step s = .next t

/-! ### Encoding -/

/-- R74, R75: decoding the word of a well-formed instruction gives it back, every field at every value, under either
`STRICT_N2`. -/
def Obligations.DecodeOfEncode : Prop :=
  ∀ (strict : Bool) (i : Instr), i.wellFormedWith strict = true →
    decodeWith strict (encode i) = some i

/-- R74, R75: a word that decodes is the word of the instruction it decodes to, and that instruction is well formed, so
no legal word has a second meaning and no bit is dropped. -/
def Obligations.EncodeOfDecode : Prop :=
  ∀ (strict : Bool) (op : Word) (i : Instr), decodeWith strict op = some i →
    encode i = op ∧ i.wellFormedWith strict = true

/-- R78: the words that decode to nothing (with `STRICT_N2` false) are exactly those of the rule's table. -/
def Obligations.IllegalWordsAreTheTable : Prop :=
  ∀ op : Word, decodeWith false op = none ↔
    (op.toNat / 0x1000 = 0x0 ∧ op.toNat % 0x100 ∉ [0x00, 0xE0, 0xEE]) ∨
    (op.toNat / 0x1000 = 0x5 ∧ op.toNat % 0x10 ≠ 0) ∨
    (op.toNat / 0x1000 = 0x8 ∧ op.toNat % 0x10 ∈ [0x8, 0x9, 0xA, 0xB, 0xC, 0xD, 0xF]) ∨
    (op.toNat / 0x1000 = 0x9 ∧ op.toNat % 0x10 ≠ 0) ∨
    (op.toNat / 0x1000 = 0xE ∧ op.toNat % 0x100 ∉ [0x9E, 0xA1]) ∨
    (op.toNat / 0x1000 = 0xF ∧
      op.toNat % 0x100 ∉ [0x07, 0x0A, 0x15, 0x18, 0x1E, 0x29, 0x33, 0x55, 0x65])

/-- R76 and `95_test_vectors.md` 2.1 and 2.3 to 2.6: words written out, one or more for each family, decode to their
instructions.  That 0x0A00 is a NOP rests on `STRICT_N2` being false, the spec's choice D4 (assumption 8), and that 0x5121
decodes to nothing on D5 (assumption 25). -/
def Obligations.SampleWordsDecode : Prop :=
  decode 0x6005 = some (.ldVxNn 0 5) ∧ decode 0x6103 = some (.ldVxNn 1 3) ∧
  decode 0x8014 = some (.addVxVy 0 1) ∧ decode 0x0000 = some (.nop 0) ∧
  decode 0x0A00 = some (.nop 0xA) ∧ decode 0x2300 = some (.call 0x300) ∧
  decode 0xB300 = some (.jmpV0 0x300) ∧ decode 0xA2F0 = some (.ldINnn 0x2F0) ∧
  decode 0xF255 = some (.str 2) ∧ decode 0xD015 = some (.drw 0 1 5) ∧
  decode 0xE19E = some (.skp 1) ∧ decode 0xF30A = some (.ldVxK 3) ∧ decode 0x5121 = none

/-! ### Invariants and reset -/

/-- Every step keeps memory in canonical form: addresses strictly rising, none above 0xFFF (R50), no cell equal to its
reset contents.  The canonical form is the model's own (assumption 26). -/
def Obligations.StepKeepsMemoryCanonical : Prop :=
  ∀ s t : State, MemoryCanonical s → step s = .next t → MemoryCanonical t

/-- Reset memory is in canonical form. -/
def Obligations.ResetMemoryCanonical : Prop := MemoryCanonical State.reset

/-- The consequence R25 draws: with no `PcSet` to come, every step keeps `PC` in 0x0000 to 0x1002 (and every stacked
address in 0x0000 to 0x1000), so `PC` never wraps at 2^16. -/
def Obligations.StepKeepsPcInReach : Prop :=
  ∀ s t : State, PcInReach s → step s = .next t → PcInReach t

/-- The reset state meets the invariant of R25. -/
def Obligations.ResetPcInReach : Prop := PcInReach State.reset

/-- R40, R202: after construction every piece of state has the value of the table (the stack entries' zero is the spec's choice
D20, assumption 20; the font's bytes are D6, assumption 5). -/
def Obligations.ResetStateHoldsTableValues : Prop := ResetValues State.reset

/-- R200: the `Reset` event writes every piece of state with the value of the table of R40, from any state, and
returns `Ok` (the stack entries' zero is the spec's choice D20, assumption 20; the font's bytes are D6, assumption 5). -/
def Obligations.ResetEventRestoresTableValues : Prop :=
  ∀ s : State, s.nextEvent = .reset →
    ∃ t, step s = .next t ∧ ResetValues t ∧ t.response = .ok

/-! ### Control transfer -/

/-- R93: NOP does nothing, and its encoding ignores nibble 2 (`STRICT_N2` is false, the spec's choice D4, assumption 8). -/
def Obligations.NopDoesNothing : Prop :=
  Encodes 0xF0FF 0x0000 (fun op => .nop (fieldN2 op)) ∧
  ∀ (k : Nibble) (s : State), exec (.nop k) s = .next s

/-- R95: JMP writes `nnn`, zero-extended, to `PC`, and nothing else. -/
def Obligations.JmpWritesPc : Prop :=
  Encodes 0xF000 0x1000 (fun op => .jmp (fieldNnn op)) ∧
  ∀ (nnn : Addr12) (s : State), ∃ t, exec (.jmp nnn) s = .next t ∧
    t.pc.toNat = nnn.toNat ∧ Frame [] [.pc] s t

/-- R97: JMP V0+nnn writes the exact sum masked to 12 bits (the mask is the spec's choice D7, assumption 10). -/
def Obligations.JmpV0WritesMaskedSum : Prop :=
  Encodes 0xF000 0xB000 (fun op => .jmpV0 (fieldNnn op)) ∧
  ∀ (nnn : Addr12) (s : State), ∃ t, exec (.jmpV0 nnn) s = .next t ∧
    t.pc.toNat = ((s.reg 0).toNat + nnn.toNat) % 4096 ∧ Frame [] [.pc] s t

/-- R98 to R101: each register skip adds 2 to the advanced `PC` when its condition holds, leaves it otherwise, and writes
nothing else. -/
def Obligations.RegisterSkips : Prop :=
  Encodes 0xF000 0x3000 (fun op => .seVxNn (fieldX op) (fieldNn op)) ∧
  Encodes 0xF000 0x4000 (fun op => .sneVxNn (fieldX op) (fieldNn op)) ∧
  Encodes 0xF00F 0x5000 (fun op => .seVxVy (fieldX op) (fieldY op)) ∧
  Encodes 0xF00F 0x9000 (fun op => .sneVxVy (fieldX op) (fieldY op)) ∧
  ∀ (x y : Reg) (nn : Byte) (s : State),
    (∃ t, exec (.seVxNn x nn) s = .next t ∧
      t.pc = (if s.reg x = nn then s.pc + 2 else s.pc) ∧ Frame [] [.pc] s t) ∧
    (∃ t, exec (.sneVxNn x nn) s = .next t ∧
      t.pc = (if s.reg x ≠ nn then s.pc + 2 else s.pc) ∧ Frame [] [.pc] s t) ∧
    (∃ t, exec (.seVxVy x y) s = .next t ∧
      t.pc = (if s.reg x = s.reg y then s.pc + 2 else s.pc) ∧ Frame [] [.pc] s t) ∧
    (∃ t, exec (.sneVxVy x y) s = .next t ∧
      t.pc = (if s.reg x ≠ s.reg y then s.pc + 2 else s.pc) ∧ Frame [] [.pc] s t)

/-- R96: with fewer than 16 entries in use, CALL writes the advanced `PC` at the old `SP`, adds 1 to `SP` and jumps; every
other stack entry and everything else is unchanged.  The push order is the spec's choice D11 (assumption 14). -/
def Obligations.CallPushesReturnAddress : Prop :=
  Encodes 0xF000 0x2000 (fun op => .call (fieldNnn op)) ∧
  ∀ (nnn : Addr12) (s : State), s.sp.val < 16 →
    ∃ t, exec (.call nnn) s = .next t ∧
      t.sp.val = s.sp.val + 1 ∧
      (∀ j : Fin 16, t.stack.get j = if j.val = s.sp.val then s.pc else s.stack.get j) ∧
      t.pc.toNat = nnn.toNat ∧ Frame [] [.pc, .call] s t

/-- R94: with an entry in use, RET takes 1 from `SP` and puts the entry at the new `SP` into `PC`; the stack entries and
everything else are unchanged.  Which entry is popped and that it stays are the spec's choice D11 (assumption 14), that the
value is not masked D7 (assumption 10), and that the encoding ignores nibble 2 D4 (`STRICT_N2` is false, assumption 8). -/
def Obligations.RetPopsReturnAddress : Prop :=
  Encodes 0xF0FF 0x00EE (fun op => .ret (fieldN2 op)) ∧
  ∀ (k : Nibble) (s : State), 0 < s.sp.val →
    ∃ t, exec (.ret k) s = .next t ∧
      t.sp.val + 1 = s.sp.val ∧ t.stack = s.stack ∧
      (∀ j : Fin 16, j.val + 1 = s.sp.val → t.pc = s.stack.get j) ∧ Frame [] [.pc, .call] s t

/-- R176: `StackOverflow` is raised by CALL when `SP = 16`, `StackUnderflow` by RET when `SP = 0`; the core is unchanged (its
`PC` is already the fetched address plus 2, so the instruction is at `PC - 2`, R171; the precision and the information
carried are the spec's choices D9 and D10, assumptions 12 and 13). -/
def Obligations.StackFaults : Prop :=
  ∀ s : State,
    (s.sp.val = 16 → ∀ nnn : Addr12, ∃ t, exec (.call nnn) s = .next t ∧
      Faulted .stackOverflow (some (s.pc - 2)) s t) ∧
    (s.sp.val = 0 → ∀ k : Nibble, ∃ t, exec (.ret k) s = .next t ∧
      Faulted .stackUnderflow (some (s.pc - 2)) s t)

/-- R94: CALL followed immediately by RET restores the `PC` that was pushed and the depth, wherever the RET stands (how the
entries are pushed is the spec's choice D11, assumption 14). -/
def Obligations.CallThenRetRestoresPc : Prop :=
  ∀ (nnn : Addr12) (k : Nibble) (a : Word) (s t : State), s.sp.val < 16 →
    exec (.call nnn) s = .next t →
    ∃ u, exec (.ret k) { t with pc := a } = .next u ∧
      u.pc = s.pc ∧ u.sp = s.sp ∧ Frame [] [.pc, .call] t u

/-! ### Loads and the ALU -/

/-- R110, R111, R112: the register loads and the flag-free add. -/
def Obligations.RegisterLoadsAndImmediateAdd : Prop :=
  Encodes 0xF000 0x6000 (fun op => .ldVxNn (fieldX op) (fieldNn op)) ∧
  Encodes 0xF000 0x7000 (fun op => .addVxNn (fieldX op) (fieldNn op)) ∧
  Encodes 0xF00F 0x8000 (fun op => .ldVxVy (fieldX op) (fieldY op)) ∧
  ∀ (x y : Reg) (nn : Byte) (s : State),
    (∃ t, exec (.ldVxNn x nn) s = .next t ∧ t.reg x = nn ∧ Frame [x] [] s t) ∧
    (∃ t, exec (.addVxNn x nn) s = .next t ∧
      (t.reg x).toNat = ((s.reg x).toNat + nn.toNat) % 256 ∧ Frame [x] [] s t) ∧
    (∃ t, exec (.ldVxVy x y) s = .next t ∧ t.reg x = s.reg y ∧ Frame [x] [] s t)

/-- R113, R114, R115: OR, AND and XOR bit by bit; `VF` is written only as an ordinary destination (the spec's choices D2, D14,
assumptions 7, 17). -/
def Obligations.BitwiseOperations : Prop :=
  Encodes 0xF00F 0x8001 (fun op => .or (fieldX op) (fieldY op)) ∧
  Encodes 0xF00F 0x8002 (fun op => .and (fieldX op) (fieldY op)) ∧
  Encodes 0xF00F 0x8003 (fun op => .xor (fieldX op) (fieldY op)) ∧
  ∀ (x y : Reg) (s : State),
    (∃ t, exec (.or x y) s = .next t ∧ Frame [x] [] s t ∧
      ∀ b, (t.reg x).getLsbD b = ((s.reg x).getLsbD b || (s.reg y).getLsbD b)) ∧
    (∃ t, exec (.and x y) s = .next t ∧ Frame [x] [] s t ∧
      ∀ b, (t.reg x).getLsbD b = ((s.reg x).getLsbD b && (s.reg y).getLsbD b)) ∧
    (∃ t, exec (.xor x y) s = .next t ∧ Frame [x] [] s t ∧
      ∀ b, (t.reg x).getLsbD b = ((s.reg x).getLsbD b ^^ (s.reg y).getLsbD b))

/-- R116: ADD Vx,Vy.  `VF` is the carry; `V[x]` is the sum modulo 256 unless `x` is 15, where the flag
remains (the order of the two writes is the spec's choice D12, assumption 15). -/
def Obligations.AddSetsCarry : Prop :=
  Encodes 0xF00F 0x8004 (fun op => .addVxVy (fieldX op) (fieldY op)) ∧
  ∀ (x y : Reg) (s : State), ∃ t, exec (.addVxVy x y) s = .next t ∧
    (x ≠ 15 → (t.reg x).toNat = ((s.reg x).toNat + (s.reg y).toNat) % 256) ∧
    t.reg 15 = (if 256 ≤ (s.reg x).toNat + (s.reg y).toNat then 1 else 0) ∧
    Frame [x, 15] [] s t

/-- R117: SUB Vx,Vy.  `VF` is 1 for no borrow; `V[x]` is the difference modulo 256 unless `x` is 15, where the flag remains
(the spec's choice D12, assumption 15). -/
def Obligations.SubSetsNoBorrow : Prop :=
  Encodes 0xF00F 0x8005 (fun op => .sub (fieldX op) (fieldY op)) ∧
  ∀ (x y : Reg) (s : State), ∃ t, exec (.sub x y) s = .next t ∧
    (x ≠ 15 → (t.reg x).toNat =
      if (s.reg y).toNat ≤ (s.reg x).toNat then (s.reg x).toNat - (s.reg y).toNat
      else (s.reg x).toNat + 256 - (s.reg y).toNat) ∧
    t.reg 15 = (if (s.reg y).toNat ≤ (s.reg x).toNat then 1 else 0) ∧
    Frame [x, 15] [] s t

/-- R118: SUBN Vx,Vy, SUB with its operands exchanged and the destination still `V[x]` (its flag is an inference the spec
marks as its own; that the flag remains where `x` is 15 is its choice D12, assumption 15). -/
def Obligations.SubnSetsNoBorrow : Prop :=
  Encodes 0xF00F 0x8007 (fun op => .subn (fieldX op) (fieldY op)) ∧
  ∀ (x y : Reg) (s : State), ∃ t, exec (.subn x y) s = .next t ∧
    (x ≠ 15 → (t.reg x).toNat =
      if (s.reg x).toNat ≤ (s.reg y).toNat then (s.reg y).toNat - (s.reg x).toNat
      else (s.reg y).toNat + 256 - (s.reg x).toNat) ∧
    t.reg 15 = (if (s.reg x).toNat ≤ (s.reg y).toNat then 1 else 0) ∧
    Frame [x, 15] [] s t

/-- R119, R120: the shifts by one, the bit shifted out in `VF`; `V[y]` is not read (the spec's choice D13,
assumption 16), and where `x` is 15 the flag remains (D12, assumption 15). -/
def Obligations.ShiftsSetBitOut : Prop :=
  Encodes 0xF00F 0x8006 (fun op => .shr (fieldX op) (fieldY op)) ∧
  Encodes 0xF00F 0x800E (fun op => .shl (fieldX op) (fieldY op)) ∧
  ∀ (x y : Reg) (s : State),
    (∃ t, exec (.shr x y) s = .next t ∧
      (x ≠ 15 → (t.reg x).toNat = (s.reg x).toNat / 2) ∧
      t.reg 15 = (if (s.reg x).getLsbD 0 then 1 else 0) ∧ Frame [x, 15] [] s t) ∧
    (∃ t, exec (.shl x y) s = .next t ∧
      (x ≠ 15 → (t.reg x).toNat = (s.reg x).toNat * 2 % 256) ∧
      t.reg 15 = (if (s.reg x).getLsbD 7 then 1 else 0) ∧ Frame [x, 15] [] s t)

/-- R121: RND Vx,nn writes the byte drawn AND `nn`, whatever the draw, and takes one draw (the draw is a free value,
assumption 1): bits outside `nn` are 0, with `nn = 0xFF` the result is the draw itself, and the counter moves on. -/
def Obligations.RndMasksTheDraw : Prop :=
  Encodes 0xF000 0xC000 (fun op => .rnd (fieldX op) (fieldNn op)) ∧
  ∀ (x : Reg) (nn : Byte) (s : State), ∃ t, exec (.rnd x nn) s = .next t ∧
    (∀ b, (t.reg x).getLsbD b = ((Config.rndDraw s.draws).getLsbD b && nn.getLsbD b)) ∧
    t.draws = s.draws + 1 ∧ Frame [x] [.draws] s t

/-! ### The address register and the timers -/

/-- R130, R131: LD I,nnn writes the zero-extended `nnn`; ADD I,Vx adds modulo 2^16, with no flag and no fault. -/
def Obligations.IndexLoadAndAdd : Prop :=
  Encodes 0xF000 0xA000 (fun op => .ldINnn (fieldNnn op)) ∧
  Encodes 0xF0FF 0xF01E (fun op => .addIVx (fieldX op)) ∧
  ∀ (nnn : Addr12) (x : Reg) (s : State),
    (∃ t, exec (.ldINnn nnn) s = .next t ∧ t.i.toNat = nnn.toNat ∧ Frame [] [.i] s t) ∧
    (∃ t, exec (.addIVx x) s = .next t ∧
      t.i.toNat = (s.i.toNat + (s.reg x).toNat) % 65536 ∧ Frame [] [.i] s t)

/-- R132: LD F,Vx writes `V[x] * 5`, the whole register multiplied (the spec's choice D25, assumption 24); for a digit it is
the address of the digit's glyph. -/
def Obligations.GlyphAddress : Prop :=
  Encodes 0xF0FF 0xF029 (fun op => .ldFVx (fieldX op)) ∧
  ∀ (x : Reg) (s : State), ∃ t, exec (.ldFVx x) s = .next t ∧
    t.i.toNat = (s.reg x).toNat * 5 ∧ Frame [] [.i] s t

/-- R133, R134: LD Vx,DT reads the delay timer and leaves it; LD DT,Vx writes it. -/
def Obligations.DelayTimerAccess : Prop :=
  Encodes 0xF0FF 0xF007 (fun op => .ldVxDt (fieldX op)) ∧
  Encodes 0xF0FF 0xF015 (fun op => .ldDtVx (fieldX op)) ∧
  ∀ (x : Reg) (s : State),
    (∃ t, exec (.ldVxDt x) s = .next t ∧ t.reg x = s.dt ∧ Frame [x] [] s t) ∧
    (∃ t, exec (.ldDtVx x) s = .next t ∧ t.dt = s.reg x ∧ Frame [] [.dt] s t)

/-- R135: LD ST,Vx writes the sound timer, and the level `sound_active` follows at once. -/
def Obligations.SoundTimerWrite : Prop :=
  Encodes 0xF0FF 0xF018 (fun op => .ldStVx (fieldX op)) ∧
  ∀ (x : Reg) (s : State), ∃ t, exec (.ldStVx x) s = .next t ∧
    t.st = s.reg x ∧ (t.soundActive = true ↔ s.reg x ≠ 0) ∧ Frame [] [.st] s t

/-! ### Memory -/

/-- R140: BCD stores the hundreds, tens and ones of `V[x]` at `I`, `I + 1`, `I + 2` when they lie in memory, and no other
byte; otherwise it raises `AddressOutOfRange(I + 2)` and changes nothing
(that the whole core is unchanged and what the fault carries are the spec's choices D9 and D10, assumptions 12 and 13; that `I` is
unchanged is D15, assumption 18). -/
def Obligations.BcdStoresDigits : Prop :=
  Encodes 0xF0FF 0xF033 (fun op => .bcd (fieldX op)) ∧
  ∀ (x : Reg) (s : State), MemoryCanonical s →
    (s.base + 2 ≤ 0xFFF → ∃ t, exec (.bcd x) s = .next t ∧
      (t.mem.read s.base).toNat = (s.reg x).toNat / 100 ∧
      (t.mem.read (s.base + 1)).toNat = (s.reg x).toNat / 10 % 10 ∧
      (t.mem.read (s.base + 2)).toNat = (s.reg x).toNat % 10 ∧
      (∀ a, a < s.base ∨ s.base + 2 < a → t.mem.read a = s.mem.read a) ∧
      Frame [] [.mem] s t) ∧
    (0xFFF < s.base + 2 → ∃ t, exec (.bcd x) s = .next t ∧
      Faulted (.addressOutOfRange (s.base + 2)) (some (s.pc - 2)) s t)

/-- R141: STR stores `V[0]` to `V[x]` at `I` to `I + x` when they lie in memory, and no other byte; otherwise it raises
`AddressOutOfRange(I + x)` and changes nothing
(that the whole core is unchanged and what the fault carries are the spec's choices D9 and D10, assumptions 12 and 13; that `I` is
unchanged is D15, assumption 18). -/
def Obligations.StrStoresRegisters : Prop :=
  Encodes 0xF0FF 0xF055 (fun op => .str (fieldX op)) ∧
  ∀ (x : Reg) (s : State), MemoryCanonical s →
    (s.base + x.val ≤ 0xFFF → ∃ t, exec (.str x) s = .next t ∧
      (∀ k : Reg, k ≤ x → t.mem.read (s.base + k.val) = s.reg k) ∧
      (∀ a, a < s.base ∨ s.base + x.val < a → t.mem.read a = s.mem.read a) ∧
      Frame [] [.mem] s t) ∧
    (0xFFF < s.base + x.val → ∃ t, exec (.str x) s = .next t ∧
      Faulted (.addressOutOfRange (s.base + x.val)) (some (s.pc - 2)) s t)

/-- R142: LDR loads `V[0]` to `V[x]` from `I` to `I + x` when they lie in memory, no other register and no byte changing;
otherwise it raises `AddressOutOfRange(I + x)` and changes nothing
(that the whole core is unchanged and what the fault carries are the spec's choices D9 and D10, assumptions 12 and 13; that `I` is
unchanged is D15, assumption 18). -/
def Obligations.LdrLoadsRegisters : Prop :=
  Encodes 0xF0FF 0xF065 (fun op => .ldr (fieldX op)) ∧
  ∀ (x : Reg) (s : State),
    (s.base + x.val ≤ 0xFFF → ∃ t, exec (.ldr x) s = .next t ∧
      (∀ k : Reg, t.reg k = if k ≤ x then s.mem.read (s.base + k.val) else s.reg k) ∧
      Frame (List.finRange 16) [] s t) ∧
    (0xFFF < s.base + x.val → ∃ t, exec (.ldr x) s = .next t ∧
      Faulted (.addressOutOfRange (s.base + x.val)) (some (s.pc - 2)) s t)

/-! ### Display -/

/-- R150: CLS makes every pixel dark and touches nothing else; its encoding ignores nibble 2 (`STRICT_N2` is false, the spec's
choice D4, assumption 8). -/
def Obligations.ClsClearsDisplay : Prop :=
  Encodes 0xF0FF 0x00E0 (fun op => .cls (fieldN2 op)) ∧
  ∀ (k : Nibble) (s : State), ∃ t, exec (.cls k) s = .next t ∧
    (∀ row col, t.disp.pixel row col = false) ∧ Frame [] [.screen] s t

/-- R151: DRW flips exactly the pixels that a 1 bit of the sprite lands on, with toroidal wrap, and `VF` is 1 exactly when
one of them was lit; nothing else changes.  A range that does not fit raises `AddressOutOfRange(I + n - 1)` and changes
nothing; with `n = 0` nothing is drawn and no fault is possible.  That `I` is unchanged is the spec's choice D15
(assumption 18); that a coordinate in `VF` is the old `VF`, the flag being written last, is D12 (assumption 15); the fault's
precision and what it carries are D9 and D10 (assumptions 12, 13). -/
def Obligations.DrwDrawsSprite : Prop :=
  Encodes 0xF000 0xD000 (fun op => .drw (fieldX op) (fieldY op) (fieldN op)) ∧
  ∀ (x y : Reg) (n : Nibble) (s : State),
    (n = 0 ∨ s.base + n.toNat ≤ 0x1000 → ∃ t, exec (.drw x y n) s = .next t ∧
      (∀ row col, SpriteLights s (s.reg x) (s.reg y) n.toNat row col →
        t.disp.pixel row col = !s.disp.pixel row col) ∧
      (∀ row col, ¬ SpriteLights s (s.reg x) (s.reg y) n.toNat row col →
        t.disp.pixel row col = s.disp.pixel row col) ∧
      (t.reg 15 = 1 ↔ ∃ row col,
        SpriteLights s (s.reg x) (s.reg y) n.toNat row col ∧ s.disp.pixel row col = true) ∧
      (t.reg 15 = 0 ∨ t.reg 15 = 1) ∧ Frame [15] [.screen] s t) ∧
    (0 < n.toNat → 0x1000 < s.base + n.toNat → ∃ t, exec (.drw x y n) s = .next t ∧
      Faulted (.addressOutOfRange (s.base + n.toNat - 1)) (some (s.pc - 2)) s t)

/-- R151, `90_conflicts.md` C8: drawing the identical sprite at the identical location twice restores the display, for every
starting buffer, and the second flag is 1 exactly when a sprite bit landed on a dark pixel at the first draw.  The second
DRW may stand at any address `a`; that the location is the same is the hypothesis on `V[x]` and `V[y]`, which a DRW with a
coordinate in `VF` meets when its flag equals the old `VF` (the order of read and flag is the spec's choice D12, assumption
15; that `I` is unchanged between the draws is D15, assumption 18). -/
def Obligations.SecondDrawRestoresDisplay : Prop :=
  ∀ (x y : Reg) (n : Nibble) (a : Word) (s t : State),
    n = 0 ∨ s.base + n.toNat ≤ 0x1000 →
    exec (.drw x y n) s = .next t → t.reg x = s.reg x → t.reg y = s.reg y →
    ∃ u, exec (.drw x y n) { t with pc := a } = .next u ∧ u.disp = s.disp ∧
      (u.reg 15 = 1 ↔ ∃ row col,
        SpriteLights s (s.reg x) (s.reg y) n.toNat row col ∧ s.disp.pixel row col = false)

/-! ### Keypad -/

/-- R160, R161: with `V[x]` at most 15, SKP skips when the key of that index is down and SKNP when it is not; nothing else
changes. -/
def Obligations.KeySkips : Prop :=
  Encodes 0xF0FF 0xE09E (fun op => .skp (fieldX op)) ∧
  Encodes 0xF0FF 0xE0A1 (fun op => .sknp (fieldX op)) ∧
  ∀ (x : Reg) (k : Key) (s : State), (s.reg x).toNat = k.val →
    (∃ t, exec (.skp x) s = .next t ∧
      t.pc = (if s.key k = true then s.pc + 2 else s.pc) ∧ Frame [] [.pc] s t) ∧
    (∃ t, exec (.sknp x) s = .next t ∧
      t.pc = (if s.key k = false then s.pc + 2 else s.pc) ∧ Frame [] [.pc] s t)

/-- R160, R161, R192: with `V[x]` above 15, SKP and SKNP raise `InvalidKeyIndex(V[x])` and change nothing (the kind is the
spec's own, D17, assumption 19). -/
def Obligations.KeySkipsFaultOnInvalidIndex : Prop :=
  ∀ (x : Reg) (s : State), 15 < (s.reg x).toNat →
    (∃ t, exec (.skp x) s = .next t ∧
      Faulted (.invalidKeyIndex (s.reg x).toNat) (some (s.pc - 2)) s t) ∧
    (∃ t, exec (.sknp x) s = .next t ∧
      Faulted (.invalidKeyIndex (s.reg x).toNat) (some (s.pc - 2)) s t)

/-- R162: LD Vx,K writes the least key that is down; with none down `PC` is rewound by 2; either way nothing else changes. -/
def Obligations.KeyWaitScansAscending : Prop :=
  Encodes 0xF0FF 0xF00A (fun op => .ldVxK (fieldX op)) ∧
  ∀ (x : Reg) (s : State),
    (∀ k : Key, s.key k = true → (∀ j : Key, j < k → s.key j = false) →
      ∃ t, exec (.ldVxK x) s = .next t ∧ (t.reg x).toNat = k.val ∧ Frame [x] [] s t) ∧
    ((∀ k : Key, s.key k = false) →
      ∃ t, exec (.ldVxK x) s = .next t ∧ t.pc = s.pc - 2 ∧ Frame [] [.pc] s t)

/-- R162, `95_test_vectors.md` S9: a whole tick that runs LD Vx,K with no key down returns `Ok` with every piece of the core's
state exactly as before. -/
def Obligations.KeyWaitTickChangesNothing : Prop :=
  ∀ (x : Reg) (s : State),
    s.nextEvent = .cpuTick → s.pc.toNat < 0xFFF →
    s.mem.read s.pc.toNat ++ s.mem.read (s.pc.toNat + 1) = encode (.ldVxK x) →
    (∀ k : Key, s.key k = false) →
    ∃ t, step s = .next t ∧ CoreEq s t ∧ t.response = .ok ∧ t.faults = s.faults ∧ t.draws = s.draws

/-! ### The host's events -/

/-- R182: a timer tick takes 1 from `DT` and from `ST`, each only if nonzero, pulses `beep` on the condition of R183 for the
old `ST`, returns `Ok`, and touches nothing else of the core.  That the host's event list loses its first entry, and the
outputs held in the state, are the model's own (assumptions 3, 4). -/
def Obligations.TimerTickCountsDown : Prop :=
  ∀ s : State, s.nextEvent = .timerTick →
    ∃ t, step s = .next t ∧
      t.dt.toNat = s.dt.toNat - 1 ∧ t.st.toNat = s.st.toNat - 1 ∧
      t.beep = beepCondition params.beepAt s.st ∧ t.response = .ok ∧
      t.events = s.events.tail ∧ t.faults = s.faults ∧ Frame [] [.dt, .st, .host] s t

/-- R183: the beep condition is `ST = 1` before the tick for `leaving_1` and `ST = 2` for `reaching_1`; the machine takes the
spec's choice `leaving_1` (D18, assumption 9). -/
def Obligations.BeepOnLeavingOne : Prop :=
  ∀ s : State, s.nextEvent = .timerTick →
    (beepCondition .reaching1 s.st = true ↔ s.st.toNat = 2) ∧
    ∃ t, step s = .next t ∧ (t.beep = true ↔ s.st.toNat = 1)

/-- R186: `KeySet(k, b)` sets that key line and nothing else (its 4-bit index is the spec's choice D23, assumption 23). -/
def Obligations.KeySetSetsOneLine : Prop :=
  ∀ (s : State) (k : Key) (b : Bool), s.nextEvent = .keySet k b →
    ∃ t, step s = .next t ∧
      (∀ j : Key, t.key j = if j = k then b else s.key j) ∧
      t.response = .ok ∧ t.faults = s.faults ∧ Frame [] [.keys, .host] s t

/-- R153, R187: `PixelQuery` returns the 2048 pixels in row-major order, pixel (`col`, `row`) at `row * 64 + col`, and changes
nothing. -/
def Obligations.PixelQueryReturnsRowMajor : Prop :=
  ∀ s : State, s.nextEvent = .pixelQuery →
    ∃ t buffer, step s = .next t ∧ t.response = .pixels buffer ∧ buffer.length = 2048 ∧
      (∀ (row : Fin 32) (col : Fin 64),
        buffer[row.val * 64 + col.val]? = some (s.disp.pixel row col)) ∧
      t.faults = s.faults ∧ Frame [] [.host] s t

/-- R206: `Load` writes its bytes at 0x200 upward and touches nothing else; an image of more than 3584 bytes is rejected with
`AddressOutOfRange(len)` and writes nothing (the kind is the spec's choice D21, assumption 21). -/
def Obligations.LoadWritesImage : Prop :=
  ∀ (s : State) (bytes : List Byte), MemoryCanonical s → s.nextEvent = .load bytes →
    (bytes.length ≤ 3584 → ∃ t, step s = .next t ∧
      (∀ (k : Nat) (h : k < bytes.length), t.mem.read (0x200 + k) = bytes[k]) ∧
      (∀ a, a < 0x200 ∨ 0x200 + bytes.length ≤ a → t.mem.read a = s.mem.read a) ∧
      t.response = .ok ∧ t.faults = s.faults ∧ Frame [] [.mem, .host] s t) ∧
    (3584 < bytes.length → ∃ t, step s = .next t ∧ CoreEq s t ∧
      t.response = .fault ⟨.addressOutOfRange bytes.length, none⟩ ∧
      t.faults = ⟨.addressOutOfRange bytes.length, none⟩ :: s.faults)

/-- R188: the register port (the spec's choice D22, assumption 22; that the two events stand in a list is assumption 3).
`RegSet` then `RegGet` returns the value written, an index above 15 raises `InvalidRegisterIndex` and changes nothing,
`PcSet` takes any value unmasked, `PcGet` and `IGet` answer the registers. -/
def Obligations.RegisterPort : Prop :=
  ∀ (s : State) (n : Nat) (b : Byte) (a : Word),
    (s.events = [.regSet n b, .regGet n] →
      (∀ h : n < 16, ∃ t u, step s = .next t ∧ t.reg ⟨n, h⟩ = b ∧ Frame [⟨n, h⟩] [.host] s t ∧
        step t = .next u ∧ u.response = .byte b ∧ CoreEq t u) ∧
      (15 < n → ∃ t u, step s = .next t ∧ CoreEq s t ∧
        t.response = .fault ⟨.invalidRegisterIndex n, none⟩ ∧
        step t = .next u ∧ CoreEq s u ∧
        u.response = .fault ⟨.invalidRegisterIndex n, none⟩)) ∧
    (s.nextEvent = .pcSet a → ∃ t, step s = .next t ∧ t.pc = a ∧ t.response = .ok ∧
      Frame [] [.pc, .host] s t) ∧
    (s.nextEvent = .pcGet → ∃ t, step s = .next t ∧ t.response = .word s.pc ∧ CoreEq s t) ∧
    (s.nextEvent = .iGet → ∃ t, step s = .next t ∧ t.response = .word s.i ∧ CoreEq s t)

/-! ### The whole machine -/

/-- R22, R24, R26 to R31, R35, R36, R58: whatever instruction runs, it writes only the registers and parts its row lists.  In
particular only CALL and RET touch the call stack, only BCD and STR memory, only CLS and DRW the display, no instruction a
key, and `VF` is written as a flag by the six instructions of R26 alone.  That BCD, STR, LDR and DRW keep `I` is the spec's
choice D15 (assumption 18), and that OR, AND and XOR keep `VF` is D14 (assumption 17). -/
def Obligations.EveryInstructionKeepsItsFootprint : Prop :=
  ∀ (i : Instr) (s t : State), exec i s = .next t → Frame (regsWritten i) (partsWritten i) s t

/-- R66, R182, R186 to R188: an event of the host other than `CpuTick` and `Reset` writes only the registers and parts its
port has.  In particular `Load` is the host's only other writer of memory, and no port writes `I`, `SP`, `STACK`, a timer
(but for the timer tick) or the display. -/
def Obligations.EveryHostEventKeepsItsFootprint : Prop :=
  ∀ s t : State, s.nextEvent ≠ .cpuTick → s.nextEvent ≠ .reset → step s = .next t →
    Frame (eventRegs s.nextEvent) (.host :: eventParts s.nextEvent) s t

/-- R177, R178: an instruction either hands no fault to the host, or hands exactly one of the one kind it can raise, naming
its own address, and then the core is exactly as the fetch phase left it (the precision is the spec's choice D9,
assumption 12). -/
def Obligations.ExecuteFaultsArePrecise : Prop :=
  ∀ (i : Instr) (s t : State), exec i s = .next t →
    t.faults = s.faults ∨ ∃ f, mayRaise i f ∧ Faulted f (some (s.pc - 2)) s t

/-- R39, R170: no output feeds back.  Two states with the same core, the same draws and the same events to come step to two
such states, whatever their responses, pulses and fault marks. -/
def Obligations.OutputsNeverFeedBack : Prop :=
  ∀ s s' t t' : State, SameInputs s s' → step s = .next t → step s' = .next t' → SameInputs t t'

/-- R61: a store is seen by the next fetch with nothing in between: after STR V1 at `I` the word fetched at `I` is `V[0]`, `V[1]`,
so the tick at `I` runs what those registers encode. -/
def Obligations.StoreIsSeenByNextFetch : Prop :=
  ∀ (s t u : State) (i : Instr),
    MemoryCanonical s → s.base + 1 ≤ 0xFFF → exec (.str 1) s = .next t →
    s.reg 0 ++ s.reg 1 = encode i → i.WellFormed →
    u = { t with pc := s.i } → u.nextEvent = .cpuTick →
    step u =
      exec i { u with
        pc := u.pc + 2
        events := u.events.tail
        response := .ok
        beep := false }
end

