-- ==== Sys2Proof/Laws/Decode.lean ====
section
/-! SUPPORT. The opcode table is unambiguous, so a matching row is the row the decoder takes (`30_encoding.md` R74). -/

namespace Sys2Proof

/-- No word matches both rows. -/
def Row.disjoint (r q : Row) : Bool := r.value &&& q.mask != q.value &&& r.mask

/-- The rows are pairwise disjoint (R74). -/
theorem opcodeTable_disjoint (strict : Bool) :
    (opcodeTable strict).Pairwise fun r q => Row.disjoint r q = true := by
  cases strict <;> decide

/-- Disjoint rows share no word. -/
theorem Row.disjoint_no_word {r q : Row} (h : Row.disjoint r q = true) (op : Word)
    (hr : op &&& r.mask = r.value) (hq : op &&& q.mask = q.value) : False := by
  refine absurd ?_ (bne_iff_ne.1 h)
  rw [← hr, ← hq, BitVec.and_assoc, BitVec.and_assoc, BitVec.and_comm r.mask]

/-- In a list of pairwise disjoint rows, a matching row is the one found. -/
theorem find_row {rows : List Row} (hd : rows.Pairwise fun r q => Row.disjoint r q = true) {r : Row}
    (hr : r ∈ rows) {op : Word} (h : op &&& r.mask = r.value) :
    (rows.find? fun q => op &&& q.mask == q.value) = some r := by
  induction rows with
  | nil => simp at hr
  | cons q rows ih =>
    obtain ⟨hq, hd⟩ := List.pairwise_cons.1 hd
    rcases List.mem_cons.1 hr with e | hr
    · subst e; simp [h]
    · have : ¬ (op &&& q.mask = q.value) := fun hm => (Row.disjoint_no_word (hq r hr) op hm h).elim
      rw [List.find?_cons_of_neg (by simpa using this)]
      exact ih hd hr

/-- A word that matches a row decodes to that row's instruction (R74). -/
theorem decodeWith_row {strict : Bool} {r : Row} (hr : r ∈ opcodeTable strict) {op : Word}
    (h : op &&& r.mask = r.value) : decodeWith strict op = some (r.build op) := by
  rw [decodeWith, find_row (opcodeTable_disjoint strict) hr h]
  rfl

end Sys2Proof
end

