-- ==== Sys2Proof/Laws/State.lean ====
section
/-! SUPPORT. What each field holds after each update: one lemma a field and an update, true by `rfl`, so that no later
proof unfolds a record update. -/

namespace Sys2Proof.Machine

/-! ### `setReg` -/

@[simp] theorem State.setReg_v (s : State) (x : Reg) (b : Byte) :
    (s.setReg x b).v = s.v.set x.val b x.isLt := rfl
@[simp] theorem State.setReg_pc (s : State) (x : Reg) (b : Byte) : (s.setReg x b).pc = s.pc := rfl
@[simp] theorem State.setReg_i (s : State) (x : Reg) (b : Byte) : (s.setReg x b).i = s.i := rfl
@[simp] theorem State.setReg_sp (s : State) (x : Reg) (b : Byte) : (s.setReg x b).sp = s.sp := rfl
@[simp] theorem State.setReg_stack (s : State) (x : Reg) (b : Byte) : (s.setReg x b).stack = s.stack := rfl
@[simp] theorem State.setReg_dt (s : State) (x : Reg) (b : Byte) : (s.setReg x b).dt = s.dt := rfl
@[simp] theorem State.setReg_st (s : State) (x : Reg) (b : Byte) : (s.setReg x b).st = s.st := rfl
@[simp] theorem State.setReg_mem (s : State) (x : Reg) (b : Byte) : (s.setReg x b).mem = s.mem := rfl
@[simp] theorem State.setReg_disp (s : State) (x : Reg) (b : Byte) : (s.setReg x b).disp = s.disp := rfl
@[simp] theorem State.setReg_keys (s : State) (x : Reg) (b : Byte) : (s.setReg x b).keys = s.keys := rfl
@[simp] theorem State.setReg_draws (s : State) (x : Reg) (b : Byte) : (s.setReg x b).draws = s.draws := rfl
@[simp] theorem State.setReg_events (s : State) (x : Reg) (b : Byte) : (s.setReg x b).events = s.events := rfl
@[simp] theorem State.setReg_response (s : State) (x : Reg) (b : Byte) :
    (s.setReg x b).response = s.response := rfl
@[simp] theorem State.setReg_beep (s : State) (x : Reg) (b : Byte) : (s.setReg x b).beep = s.beep := rfl
@[simp] theorem State.setReg_faults (s : State) (x : Reg) (b : Byte) : (s.setReg x b).faults = s.faults := rfl

/-! ### `setPc` -/

@[simp] theorem State.setPc_v (s : State) (a : Word) : (s.setPc a).v = s.v := rfl
@[simp] theorem State.setPc_pc (s : State) (a : Word) : (s.setPc a).pc = a := rfl
@[simp] theorem State.setPc_i (s : State) (a : Word) : (s.setPc a).i = s.i := rfl
@[simp] theorem State.setPc_sp (s : State) (a : Word) : (s.setPc a).sp = s.sp := rfl
@[simp] theorem State.setPc_stack (s : State) (a : Word) : (s.setPc a).stack = s.stack := rfl
@[simp] theorem State.setPc_dt (s : State) (a : Word) : (s.setPc a).dt = s.dt := rfl
@[simp] theorem State.setPc_st (s : State) (a : Word) : (s.setPc a).st = s.st := rfl
@[simp] theorem State.setPc_mem (s : State) (a : Word) : (s.setPc a).mem = s.mem := rfl
@[simp] theorem State.setPc_disp (s : State) (a : Word) : (s.setPc a).disp = s.disp := rfl
@[simp] theorem State.setPc_keys (s : State) (a : Word) : (s.setPc a).keys = s.keys := rfl
@[simp] theorem State.setPc_draws (s : State) (a : Word) : (s.setPc a).draws = s.draws := rfl
@[simp] theorem State.setPc_events (s : State) (a : Word) : (s.setPc a).events = s.events := rfl
@[simp] theorem State.setPc_response (s : State) (a : Word) : (s.setPc a).response = s.response := rfl
@[simp] theorem State.setPc_beep (s : State) (a : Word) : (s.setPc a).beep = s.beep := rfl
@[simp] theorem State.setPc_faults (s : State) (a : Word) : (s.setPc a).faults = s.faults := rfl

/-! ### `setI` -/

@[simp] theorem State.setI_v (s : State) (a : Word) : (s.setI a).v = s.v := rfl
@[simp] theorem State.setI_pc (s : State) (a : Word) : (s.setI a).pc = s.pc := rfl
@[simp] theorem State.setI_i (s : State) (a : Word) : (s.setI a).i = a := rfl
@[simp] theorem State.setI_sp (s : State) (a : Word) : (s.setI a).sp = s.sp := rfl
@[simp] theorem State.setI_stack (s : State) (a : Word) : (s.setI a).stack = s.stack := rfl
@[simp] theorem State.setI_dt (s : State) (a : Word) : (s.setI a).dt = s.dt := rfl
@[simp] theorem State.setI_st (s : State) (a : Word) : (s.setI a).st = s.st := rfl
@[simp] theorem State.setI_mem (s : State) (a : Word) : (s.setI a).mem = s.mem := rfl
@[simp] theorem State.setI_disp (s : State) (a : Word) : (s.setI a).disp = s.disp := rfl
@[simp] theorem State.setI_keys (s : State) (a : Word) : (s.setI a).keys = s.keys := rfl
@[simp] theorem State.setI_draws (s : State) (a : Word) : (s.setI a).draws = s.draws := rfl
@[simp] theorem State.setI_events (s : State) (a : Word) : (s.setI a).events = s.events := rfl
@[simp] theorem State.setI_response (s : State) (a : Word) : (s.setI a).response = s.response := rfl
@[simp] theorem State.setI_beep (s : State) (a : Word) : (s.setI a).beep = s.beep := rfl
@[simp] theorem State.setI_faults (s : State) (a : Word) : (s.setI a).faults = s.faults := rfl

/-! ### `setDt` -/

@[simp] theorem State.setDt_v (s : State) (b : Byte) : (s.setDt b).v = s.v := rfl
@[simp] theorem State.setDt_pc (s : State) (b : Byte) : (s.setDt b).pc = s.pc := rfl
@[simp] theorem State.setDt_i (s : State) (b : Byte) : (s.setDt b).i = s.i := rfl
@[simp] theorem State.setDt_sp (s : State) (b : Byte) : (s.setDt b).sp = s.sp := rfl
@[simp] theorem State.setDt_stack (s : State) (b : Byte) : (s.setDt b).stack = s.stack := rfl
@[simp] theorem State.setDt_dt (s : State) (b : Byte) : (s.setDt b).dt = b := rfl
@[simp] theorem State.setDt_st (s : State) (b : Byte) : (s.setDt b).st = s.st := rfl
@[simp] theorem State.setDt_mem (s : State) (b : Byte) : (s.setDt b).mem = s.mem := rfl
@[simp] theorem State.setDt_disp (s : State) (b : Byte) : (s.setDt b).disp = s.disp := rfl
@[simp] theorem State.setDt_keys (s : State) (b : Byte) : (s.setDt b).keys = s.keys := rfl
@[simp] theorem State.setDt_draws (s : State) (b : Byte) : (s.setDt b).draws = s.draws := rfl
@[simp] theorem State.setDt_events (s : State) (b : Byte) : (s.setDt b).events = s.events := rfl
@[simp] theorem State.setDt_response (s : State) (b : Byte) : (s.setDt b).response = s.response := rfl
@[simp] theorem State.setDt_beep (s : State) (b : Byte) : (s.setDt b).beep = s.beep := rfl
@[simp] theorem State.setDt_faults (s : State) (b : Byte) : (s.setDt b).faults = s.faults := rfl

/-! ### `setSt` -/

@[simp] theorem State.setSt_v (s : State) (b : Byte) : (s.setSt b).v = s.v := rfl
@[simp] theorem State.setSt_pc (s : State) (b : Byte) : (s.setSt b).pc = s.pc := rfl
@[simp] theorem State.setSt_i (s : State) (b : Byte) : (s.setSt b).i = s.i := rfl
@[simp] theorem State.setSt_sp (s : State) (b : Byte) : (s.setSt b).sp = s.sp := rfl
@[simp] theorem State.setSt_stack (s : State) (b : Byte) : (s.setSt b).stack = s.stack := rfl
@[simp] theorem State.setSt_dt (s : State) (b : Byte) : (s.setSt b).dt = s.dt := rfl
@[simp] theorem State.setSt_st (s : State) (b : Byte) : (s.setSt b).st = b := rfl
@[simp] theorem State.setSt_mem (s : State) (b : Byte) : (s.setSt b).mem = s.mem := rfl
@[simp] theorem State.setSt_disp (s : State) (b : Byte) : (s.setSt b).disp = s.disp := rfl
@[simp] theorem State.setSt_keys (s : State) (b : Byte) : (s.setSt b).keys = s.keys := rfl
@[simp] theorem State.setSt_draws (s : State) (b : Byte) : (s.setSt b).draws = s.draws := rfl
@[simp] theorem State.setSt_events (s : State) (b : Byte) : (s.setSt b).events = s.events := rfl
@[simp] theorem State.setSt_response (s : State) (b : Byte) : (s.setSt b).response = s.response := rfl
@[simp] theorem State.setSt_beep (s : State) (b : Byte) : (s.setSt b).beep = s.beep := rfl
@[simp] theorem State.setSt_faults (s : State) (b : Byte) : (s.setSt b).faults = s.faults := rfl

/-! ### `raise` -/

@[simp] theorem State.raise_v (s : State) (f : Fault) (at' : Option Word) : (s.raise f at').v = s.v := rfl
@[simp] theorem State.raise_pc (s : State) (f : Fault) (at' : Option Word) : (s.raise f at').pc = s.pc := rfl
@[simp] theorem State.raise_i (s : State) (f : Fault) (at' : Option Word) : (s.raise f at').i = s.i := rfl
@[simp] theorem State.raise_sp (s : State) (f : Fault) (at' : Option Word) : (s.raise f at').sp = s.sp := rfl
@[simp] theorem State.raise_stack (s : State) (f : Fault) (at' : Option Word) :
    (s.raise f at').stack = s.stack := rfl
@[simp] theorem State.raise_dt (s : State) (f : Fault) (at' : Option Word) : (s.raise f at').dt = s.dt := rfl
@[simp] theorem State.raise_st (s : State) (f : Fault) (at' : Option Word) : (s.raise f at').st = s.st := rfl
@[simp] theorem State.raise_mem (s : State) (f : Fault) (at' : Option Word) :
    (s.raise f at').mem = s.mem := rfl
@[simp] theorem State.raise_disp (s : State) (f : Fault) (at' : Option Word) :
    (s.raise f at').disp = s.disp := rfl
@[simp] theorem State.raise_keys (s : State) (f : Fault) (at' : Option Word) :
    (s.raise f at').keys = s.keys := rfl
@[simp] theorem State.raise_draws (s : State) (f : Fault) (at' : Option Word) :
    (s.raise f at').draws = s.draws := rfl
@[simp] theorem State.raise_events (s : State) (f : Fault) (at' : Option Word) :
    (s.raise f at').events = s.events := rfl
@[simp] theorem State.raise_response (s : State) (f : Fault) (at' : Option Word) :
    (s.raise f at').response = .fault ⟨f, at'⟩ := rfl
@[simp] theorem State.raise_beep (s : State) (f : Fault) (at' : Option Word) :
    (s.raise f at').beep = s.beep := rfl
@[simp] theorem State.raise_faults (s : State) (f : Fault) (at' : Option Word) :
    (s.raise f at').faults = ⟨f, at'⟩ :: s.faults := rfl

/-! ### `clearOutputs` -/

@[simp] theorem State.clearOutputs_v (s : State) : (s.clearOutputs).v = s.v := rfl
@[simp] theorem State.clearOutputs_pc (s : State) : (s.clearOutputs).pc = s.pc := rfl
@[simp] theorem State.clearOutputs_i (s : State) : (s.clearOutputs).i = s.i := rfl
@[simp] theorem State.clearOutputs_sp (s : State) : (s.clearOutputs).sp = s.sp := rfl
@[simp] theorem State.clearOutputs_stack (s : State) : (s.clearOutputs).stack = s.stack := rfl
@[simp] theorem State.clearOutputs_dt (s : State) : (s.clearOutputs).dt = s.dt := rfl
@[simp] theorem State.clearOutputs_st (s : State) : (s.clearOutputs).st = s.st := rfl
@[simp] theorem State.clearOutputs_mem (s : State) : (s.clearOutputs).mem = s.mem := rfl
@[simp] theorem State.clearOutputs_disp (s : State) : (s.clearOutputs).disp = s.disp := rfl
@[simp] theorem State.clearOutputs_keys (s : State) : (s.clearOutputs).keys = s.keys := rfl
@[simp] theorem State.clearOutputs_draws (s : State) : (s.clearOutputs).draws = s.draws := rfl
@[simp] theorem State.clearOutputs_events (s : State) : (s.clearOutputs).events = s.events := rfl
@[simp] theorem State.clearOutputs_response (s : State) : (s.clearOutputs).response = .ok := rfl
@[simp] theorem State.clearOutputs_beep (s : State) : (s.clearOutputs).beep = false := rfl
@[simp] theorem State.clearOutputs_faults (s : State) : (s.clearOutputs).faults = s.faults := rfl

/-! ### `beginEvent` -/

@[simp] theorem State.beginEvent_v (s : State) : (s.beginEvent).v = s.v := rfl
@[simp] theorem State.beginEvent_pc (s : State) : (s.beginEvent).pc = s.pc := rfl
@[simp] theorem State.beginEvent_i (s : State) : (s.beginEvent).i = s.i := rfl
@[simp] theorem State.beginEvent_sp (s : State) : (s.beginEvent).sp = s.sp := rfl
@[simp] theorem State.beginEvent_stack (s : State) : (s.beginEvent).stack = s.stack := rfl
@[simp] theorem State.beginEvent_dt (s : State) : (s.beginEvent).dt = s.dt := rfl
@[simp] theorem State.beginEvent_st (s : State) : (s.beginEvent).st = s.st := rfl
@[simp] theorem State.beginEvent_mem (s : State) : (s.beginEvent).mem = s.mem := rfl
@[simp] theorem State.beginEvent_disp (s : State) : (s.beginEvent).disp = s.disp := rfl
@[simp] theorem State.beginEvent_keys (s : State) : (s.beginEvent).keys = s.keys := rfl
@[simp] theorem State.beginEvent_draws (s : State) : (s.beginEvent).draws = s.draws := rfl
@[simp] theorem State.beginEvent_events (s : State) : (s.beginEvent).events = s.events.tail := rfl
@[simp] theorem State.beginEvent_response (s : State) : (s.beginEvent).response = .ok := rfl
@[simp] theorem State.beginEvent_beep (s : State) : (s.beginEvent).beep = false := rfl
@[simp] theorem State.beginEvent_faults (s : State) : (s.beginEvent).faults = s.faults := rfl

/-! ### `answer` -/

@[simp] theorem State.answer_v (s : State) (r : Response) : (s.answer r).v = s.v := rfl
@[simp] theorem State.answer_pc (s : State) (r : Response) : (s.answer r).pc = s.pc := rfl
@[simp] theorem State.answer_i (s : State) (r : Response) : (s.answer r).i = s.i := rfl
@[simp] theorem State.answer_sp (s : State) (r : Response) : (s.answer r).sp = s.sp := rfl
@[simp] theorem State.answer_stack (s : State) (r : Response) : (s.answer r).stack = s.stack := rfl
@[simp] theorem State.answer_dt (s : State) (r : Response) : (s.answer r).dt = s.dt := rfl
@[simp] theorem State.answer_st (s : State) (r : Response) : (s.answer r).st = s.st := rfl
@[simp] theorem State.answer_mem (s : State) (r : Response) : (s.answer r).mem = s.mem := rfl
@[simp] theorem State.answer_disp (s : State) (r : Response) : (s.answer r).disp = s.disp := rfl
@[simp] theorem State.answer_keys (s : State) (r : Response) : (s.answer r).keys = s.keys := rfl
@[simp] theorem State.answer_draws (s : State) (r : Response) : (s.answer r).draws = s.draws := rfl
@[simp] theorem State.answer_events (s : State) (r : Response) : (s.answer r).events = s.events := rfl
@[simp] theorem State.answer_response (s : State) (r : Response) : (s.answer r).response = r := rfl
@[simp] theorem State.answer_beep (s : State) (r : Response) : (s.answer r).beep = s.beep := rfl
@[simp] theorem State.answer_faults (s : State) (r : Response) : (s.answer r).faults = s.faults := rfl

/-! ### `setFlag` -/

@[simp] theorem State.setFlag_v (s : State) (f : Bool) :
    (s.setFlag f).v = s.v.set flagReg.val (flagByte f) flagReg.isLt := rfl
@[simp] theorem State.setFlag_pc (s : State) (f : Bool) : (s.setFlag f).pc = s.pc := rfl
@[simp] theorem State.setFlag_i (s : State) (f : Bool) : (s.setFlag f).i = s.i := rfl
@[simp] theorem State.setFlag_sp (s : State) (f : Bool) : (s.setFlag f).sp = s.sp := rfl
@[simp] theorem State.setFlag_stack (s : State) (f : Bool) : (s.setFlag f).stack = s.stack := rfl
@[simp] theorem State.setFlag_dt (s : State) (f : Bool) : (s.setFlag f).dt = s.dt := rfl
@[simp] theorem State.setFlag_st (s : State) (f : Bool) : (s.setFlag f).st = s.st := rfl
@[simp] theorem State.setFlag_mem (s : State) (f : Bool) : (s.setFlag f).mem = s.mem := rfl
@[simp] theorem State.setFlag_disp (s : State) (f : Bool) : (s.setFlag f).disp = s.disp := rfl
@[simp] theorem State.setFlag_keys (s : State) (f : Bool) : (s.setFlag f).keys = s.keys := rfl
@[simp] theorem State.setFlag_draws (s : State) (f : Bool) : (s.setFlag f).draws = s.draws := rfl
@[simp] theorem State.setFlag_events (s : State) (f : Bool) : (s.setFlag f).events = s.events := rfl
@[simp] theorem State.setFlag_response (s : State) (f : Bool) : (s.setFlag f).response = s.response := rfl
@[simp] theorem State.setFlag_beep (s : State) (f : Bool) : (s.setFlag f).beep = s.beep := rfl
@[simp] theorem State.setFlag_faults (s : State) (f : Bool) : (s.setFlag f).faults = s.faults := rfl

/-! ### Updates that are one of the above -/

@[simp] theorem State.advance_eq (s : State) : s.advance = s.setPc (s.pc + 2) := rfl
@[simp] theorem State.rewind_eq (s : State) : s.rewind = s.setPc (s.pc - 2) := rfl
@[simp] theorem State.raiseExec_eq (s : State) (f : Fault) :
    s.raiseExec f = s.raise f (some (s.pc - 2)) := rfl
@[simp] theorem State.setWithFlag_eq (s : State) (x : Reg) (b : Byte) (f : Bool) :
    s.setWithFlag x b f = (s.setReg x b).setFlag f := rfl

/-- A skip is a write of `PC`. -/
@[simp] theorem State.skipIf_eq (s : State) (c : Bool) :
    s.skipIf c = s.setPc (if c then s.pc + 2 else s.pc) := by
  cases c <;> rfl

/-! ### Reads of a general register -/

/-- A register read after a register write. -/
@[simp] theorem State.reg_setReg (s : State) (x y : Reg) (b : Byte) :
    (s.setReg x b).reg y = if y = x then b else s.reg y := by
  simp only [State.reg, State.setReg, Vector.get_eq_getElem, Vector.getElem_set]
  by_cases h : y = x
  · simp [h]
  · rw [if_neg h, if_neg fun e => h (Fin.ext e.symm)]

/-- A register read after the flag is written. -/
@[simp] theorem State.reg_setFlag (s : State) (y : Reg) (f : Bool) :
    (s.setFlag f).reg y = if y = flagReg then flagByte f else s.reg y :=
  State.reg_setReg s flagReg y (flagByte f)

/-- A register read depends on the register file alone. -/
theorem State.reg_congr {s t : State} (h : t.v = s.v) (x : Reg) : t.reg x = s.reg x := by
  simp [State.reg, h]

@[simp] theorem State.reg_setPc (s : State) (a : Word) (x : Reg) :
    (s.setPc a).reg x = s.reg x := rfl
@[simp] theorem State.reg_setI (s : State) (a : Word) (x : Reg) :
    (s.setI a).reg x = s.reg x := rfl
@[simp] theorem State.reg_setDt (s : State) (b : Byte) (x : Reg) :
    (s.setDt b).reg x = s.reg x := rfl
@[simp] theorem State.reg_setSt (s : State) (b : Byte) (x : Reg) :
    (s.setSt b).reg x = s.reg x := rfl
@[simp] theorem State.reg_raise (s : State) (f : Fault) (at' : Option Word) (x : Reg) :
    (s.raise f at').reg x = s.reg x := rfl
@[simp] theorem State.reg_clearOutputs (s : State) (x : Reg) :
    (s.clearOutputs).reg x = s.reg x := rfl
@[simp] theorem State.reg_beginEvent (s : State) (x : Reg) :
    (s.beginEvent).reg x = s.reg x := rfl
@[simp] theorem State.reg_answer (s : State) (r : Response) (x : Reg) :
    (s.answer r).reg x = s.reg x := rfl

end Sys2Proof.Machine
end

