-- ==== Sys2Proof/Laws/Memory.lean ====
section
/-! SUPPORT. What the memory operations do: read after write, the canonical form kept, the block reads and writes. -/

namespace Sys2Proof.Machine

/-! ### One cell -/

/-- Every address listed in canonical memory lies above a bound the head lies above. -/
theorem Memory.read_of_lt {m : Memory} {a : Nat} (h : ∀ c ∈ m, a < c.1) :
    m.read a = Memory.resetByte a := by
  induction m with
  | nil => rfl
  | cons c m ih =>
    have hc := h c List.mem_cons_self
    rw [Memory.read, if_neg (by omega)]
    exact ih fun d hd => h d (List.mem_cons_of_mem _ hd)

/-- A write leaves every other address alone, whatever the memory. -/
theorem Memory.read_write_other (m : Memory) {a a' : Nat} (b : Byte) (h : a' ≠ a) :
    (m.write a b).read a' = m.read a' := by
  induction m with
  | nil =>
    unfold Memory.write
    split
    · rfl
    · simp [Memory.read, h.symm]
  | cons c m ih =>
    unfold Memory.write
    split_ifs with h1 h2 h3 h4
    · simp [Memory.read, ih]
    · simp [Memory.read, h2, h.symm]
    · simp [Memory.read, h2, h.symm]
    · rfl
    · simp [Memory.read, h.symm]

/-- A read after a write to the same address gives the byte written. -/
theorem Memory.read_write_same {m : Memory} (hm : Memory.wf m) (a : Nat) (b : Byte) :
    (m.write a b).read a = b := by
  obtain ⟨hs, -⟩ := hm
  induction m with
  | nil =>
    unfold Memory.write
    split
    · simp [Memory.read, *]
    · simp [Memory.read]
  | cons c m ih =>
    obtain ⟨hc, hs⟩ := List.pairwise_cons.1 hs
    unfold Memory.write
    split_ifs with h1 h2 h3 h4
    · simp [Memory.read, ih hs, Nat.ne_of_lt h1]
    · rw [h3]
      exact Memory.read_of_lt fun d hd => h2 ▸ hc d hd
    · simp [Memory.read]
    · rw [h4, Memory.read, if_neg h2]
      exact Memory.read_of_lt fun d hd => Nat.lt_trans (by omega) (hc d hd)
    · simp [Memory.read]

/-- A read after a write. -/
theorem Memory.read_write {m : Memory} (hm : Memory.wf m) (a a' : Nat) (b : Byte) :
    (m.write a b).read a' = if a' = a then b else m.read a' := by
  split
  · next h => rw [h, Memory.read_write_same hm]
  · next h => exact Memory.read_write_other m b h

/-- A cell of a written memory is the written one or an old one. -/
theorem Memory.mem_write {m : Memory} {a : Nat} {b : Byte} {c : Host.Cell} (h : c ∈ m.write a b) :
    (c = (a, b) ∧ b ≠ Memory.resetByte a) ∨ c ∈ m := by
  induction m with
  | nil =>
    unfold Memory.write at h
    split at h <;> simp_all
  | cons d m ih =>
    unfold Memory.write at h
    split_ifs at h <;> simp_all
    · rcases h with h | h
      · simp [h]
      · rcases ih h with h | h <;> simp [h]
    · tauto

/-- A write keeps the addresses strictly rising. -/
theorem Memory.pairwise_write {m : Memory} (hs : m.Pairwise (fun c d => c.1 < d.1)) (a : Nat) (b : Byte) :
    (m.write a b).Pairwise (fun c d => c.1 < d.1) := by
  induction m with
  | nil =>
    unfold Memory.write
    split <;> simp
  | cons c m ih =>
    obtain ⟨hc, hs'⟩ := List.pairwise_cons.1 hs
    unfold Memory.write
    split_ifs with h1 h2 h3 h4
    · refine List.pairwise_cons.2 ⟨fun d hd => ?_, ih hs'⟩
      rcases Memory.mem_write hd with ⟨h, -⟩ | h
      · rw [h]; exact h1
      · exact hc d h
    · exact hs'
    · exact List.pairwise_cons.2 ⟨fun d hd => h2 ▸ hc d hd, hs'⟩
    · exact hs
    · refine List.pairwise_cons.2 ⟨fun d hd => ?_, hs⟩
      rcases List.mem_cons.1 hd with h | h
      · rw [h]; show a < c.1; omega
      · have := hc d h; show a < d.1; omega

/-- A write inside the address space keeps the canonical form. -/
theorem Memory.wf_write {m : Memory} (hm : Memory.wf m) {a : Nat} (ha : a ≤ 0xFFF) (b : Byte) :
    Memory.wf (m.write a b) := by
  refine ⟨Memory.pairwise_write hm.1 a b, fun c hc => ?_⟩
  rcases Memory.mem_write hc with ⟨h, hb⟩ | h
  · rw [h]; exact ⟨ha, hb⟩
  · exact hm.2 c h

/-- Empty memory is canonical. -/
theorem Memory.wf_nil : Memory.wf [] := by decide

/-! ### Blocks -/

/-- Consecutive bytes written upward from an address. -/
def Memory.writeList (m : Memory) (base : Nat) : List Byte → Memory
  | [] => m
  | b :: bs => Memory.writeList (m.write base b) (base + 1) bs

/-- A block write inside the address space keeps the canonical form. -/
theorem Memory.wf_writeList {m : Memory} (hm : Memory.wf m) {base : Nat} {bs : List Byte}
    (h : base + bs.length ≤ 0x1000) : Memory.wf (m.writeList base bs) := by
  induction bs generalizing m base with
  | nil => exact hm
  | cons b bs ih =>
    simp only [List.length_cons] at h
    exact ih (Memory.wf_write hm (by omega) b) (by omega)

/-- A block write leaves every address outside the block alone. -/
theorem Memory.read_writeList_other (m : Memory) {base a : Nat} {bs : List Byte}
    (h : a < base ∨ base + bs.length ≤ a) : (m.writeList base bs).read a = m.read a := by
  induction bs generalizing m base with
  | nil => rfl
  | cons b bs ih =>
    simp only [List.length_cons] at h
    rw [Memory.writeList, ih _ (by omega), Memory.read_write_other m b (by omega)]

/-- A read of the `k`-th byte of a block after the block is written. -/
theorem Memory.read_writeList {m : Memory} (hm : Memory.wf m) {base k : Nat} {bs : List Byte}
    (h : base + bs.length ≤ 0x1000) (hk : k < bs.length) :
    (m.writeList base bs).read (base + k) = bs[k] := by
  induction bs generalizing m base k with
  | nil => simp at hk
  | cons b bs ih =>
    simp only [List.length_cons] at h hk
    rw [Memory.writeList]
    cases k with
    | zero =>
      rw [Memory.read_writeList_other _ (by omega), Nat.add_zero, Memory.read_write_same hm]
      rfl
    | succ k =>
      rw [show base + (k + 1) = base + 1 + k by omega,
        ih (Memory.wf_write hm (by omega) b) (by omega) (by omega)]
      rfl

/-! ### The access primitives -/

/-- The range check passes exactly when the range is empty or ends inside the address space. -/
theorem checkRange_ok {base len : Nat} (h : len = 0 ∨ base + len ≤ 0x1000) : checkRange base len = .ok () := by
  rw [checkRange, if_neg]
  omega

/-- The range check faults with the last address of a range that ends outside. -/
theorem checkRange_error {base len : Nat} (h0 : 0 < len) (h : 0x1000 < base + len) :
    checkRange base len = .error (.addressOutOfRange (base + len - 1)) := by
  rw [checkRange, if_pos]
  omega

/-- The reads of a range inside memory. -/
theorem State.readFrom_ok (s : State) {base len : Nat} (h : base + len ≤ 0x1000) :
    s.readFrom base len = .ok ((List.range len).map fun k => s.mem.read (base + k)) := by
  induction len generalizing base with
  | zero => rfl
  | succ len ih =>
    have h1 : s.memRead1 base = .ok (s.mem.read base) := by
      rw [State.memRead1, if_neg (by omega)]
    rw [State.readFrom, h1, ih (by omega)]
    simp [List.range_succ_eq_map, List.map_map, Function.comp_def, Nat.add_assoc, Nat.add_comm 1]

/-- The writes to a range inside memory. -/
theorem State.writeFrom_ok (s : State) {base : Nat} {bs : List Byte} (h : base + bs.length ≤ 0x1000) :
    s.writeFrom base bs = .ok { s with mem := s.mem.writeList base bs } := by
  induction bs generalizing s base with
  | nil => rfl
  | cons b bs ih =>
    simp only [List.length_cons] at h
    have h1 : s.memWrite1 base b = .ok { s with mem := s.mem.write base b } := by
      rw [State.memWrite1, if_neg (by omega)]
    rw [State.writeFrom, h1]
    exact ih _ (by omega)

/-- A block read that fits, or is empty. -/
theorem State.loadBlock_ok (s : State) {base len : Nat} (h : len = 0 ∨ base + len ≤ 0x1000) :
    s.loadBlock base len = .ok ((List.range len).map fun k => s.mem.read (base + k)) := by
  rw [State.loadBlock, checkRange_ok h]
  rcases h with h | h
  · subst h; rfl
  · exact State.readFrom_ok s h

/-- A block read that does not fit. -/
theorem State.loadBlock_error (s : State) {base len : Nat} (h0 : 0 < len) (h : 0x1000 < base + len) :
    s.loadBlock base len = .error (.addressOutOfRange (base + len - 1)) := by
  rw [State.loadBlock, checkRange_error h0 h]

/-- A block write that fits. -/
theorem State.storeBlock_ok (s : State) {base : Nat} {bs : List Byte} (h : base + bs.length ≤ 0x1000) :
    s.storeBlock base bs = .ok { s with mem := s.mem.writeList base bs } := by
  rw [State.storeBlock, checkRange_ok (Or.inr h)]
  exact State.writeFrom_ok s h

/-- A block write that does not fit. -/
theorem State.storeBlock_error (s : State) {base : Nat} {bs : List Byte} (h0 : 0 < bs.length)
    (h : 0x1000 < base + bs.length) :
    s.storeBlock base bs = .error (.addressOutOfRange (base + bs.length - 1)) := by
  rw [State.storeBlock, checkRange_error h0 h]

/-- Everything a block write can do. -/
theorem State.storeBlock_cases (s : State) (base : Nat) (bs : List Byte) :
    (s.storeBlock base bs = .ok { s with mem := s.mem.writeList base bs } ∧
      (bs = [] ∨ base + bs.length ≤ 0x1000)) ∨
    (s.storeBlock base bs = .error (.addressOutOfRange (base + bs.length - 1)) ∧
      0 < bs.length ∧ 0x1000 < base + bs.length) := by
  by_cases h0 : bs = []
  · subst h0; exact .inl ⟨rfl, .inl rfl⟩
  · have hp : 0 < bs.length := List.length_pos_iff.2 h0
    by_cases h : base + bs.length ≤ 0x1000
    · exact .inl ⟨State.storeBlock_ok s h, .inr h⟩
    · exact .inr ⟨State.storeBlock_error s hp (by omega), hp, by omega⟩

/-- Everything a block read can do. -/
theorem State.loadBlock_cases (s : State) (base len : Nat) :
    (s.loadBlock base len = .ok ((List.range len).map fun k => s.mem.read (base + k)) ∧
      (len = 0 ∨ base + len ≤ 0x1000)) ∨
    (s.loadBlock base len = .error (.addressOutOfRange (base + len - 1)) ∧
      0 < len ∧ 0x1000 < base + len) := by
  by_cases h : len = 0 ∨ base + len ≤ 0x1000
  · exact .inl ⟨State.loadBlock_ok s h, h⟩
  · exact .inr ⟨State.loadBlock_error s (by omega) (by omega), by omega, by omega⟩

/-- The fetch of a word that lies in memory (R91). -/
theorem State.fetch_ok (s : State) (h : s.pc.toNat < 0xFFF) :
    s.fetch = .ok (wordOfBytes (s.mem.read s.pc.toNat) (s.mem.read (s.pc.toNat + 1))) := by
  rw [State.fetch, State.memRead2, if_neg (by omega)]

/-- The fetch where `PC >= 0x0FFF` (R91). -/
theorem State.fetch_error (s : State) (h : 0xFFF ≤ s.pc.toNat) :
    s.fetch = .error (.addressOutOfRange s.pc.toNat) := by
  rw [State.fetch, State.memRead2, if_pos (by omega)]

end Sys2Proof.Machine
end

