-- ==== Sys2Proof/Laws/Ops.lean ====
section
/-! SUPPORT. What each shared operation over registers, the stack, keys and faults can do, said once. -/

namespace Sys2Proof.Machine

/-! ### How an execute phase ends -/

@[simp] theorem State.settle_ok (s t : State) : s.settle (.ok t) = .next t := rfl
@[simp] theorem State.settle_error (s : State) (f : Fault) : s.settle (.error f) = .next (s.raiseExec f) := rfl
@[simp] theorem State.settlePort_ok (s t : State) : s.settlePort (.ok t) = t := rfl
@[simp] theorem State.settlePort_error (s : State) (f : Fault) : s.settlePort (.error f) = s.raise f none := rfl

/-- An execute phase ends in its own next state or in its fault, raised on the state it started from. -/
theorem State.settle_next {s t : State} {r : Except Fault State} (h : s.settle r = .next t) :
    r = .ok t ∨ ∃ f, r = .error f ∧ t = s.raiseExec f := by
  cases r with
  | ok u => cases h; exact .inl rfl
  | error f => cases h; exact .inr ⟨f, rfl, rfl⟩

/-- An execute phase always answers a next state. -/
theorem State.settle_answers (s : State) (r : Except Fault State) : ∃ t, s.settle r = .next t := by
  cases r <;> exact ⟨_, rfl⟩

/-! ### The call stack -/

/-- Everything a push can do. -/
theorem State.push_cases (s : State) (a : Word) :
    (∃ h : s.sp.val < 16, s.push a =
      .ok { s with stack := s.stack.set s.sp.val a h, sp := ⟨s.sp.val + 1, by omega⟩ }) ∨
    (s.sp.val = 16 ∧ s.push a = .error .stackOverflow) := by
  unfold State.push
  split
  · next h => exact .inl ⟨h, rfl⟩
  · exact .inr ⟨by omega, rfl⟩

/-- Everything the pop of RET can do. -/
theorem State.popPc_cases (s : State) :
    (∃ _ : s.sp.val ≠ 0, s.popPc =
      .ok { s with
        sp := ⟨s.sp.val - 1, by omega⟩
        pc := s.stack.get ⟨s.sp.val - 1, by omega⟩ }) ∨
    (s.sp.val = 0 ∧ s.popPc = .error .stackUnderflow) := by
  unfold State.popPc
  split
  · next h => exact .inr ⟨h, rfl⟩
  · next h => exact .inl ⟨h, rfl⟩

/-! ### Block loads into registers -/

/-- A block load writes the register file and nothing else. -/
theorem State.setRegsFrom_eq (s : State) (k : Nat) (bs : List Byte) :
    s.setRegsFrom k bs = { s with v := (s.setRegsFrom k bs).v } := by
  induction bs generalizing s k with
  | nil => rfl
  | cons b bs ih => exact ih _ _

/-- A register after a block load: the loaded byte inside the block, the old value outside. -/
theorem State.reg_setRegsFrom (s : State) (k : Nat) (bs : List Byte) (x : Reg) :
    (s.setRegsFrom k bs).reg x =
      if h : k ≤ x.val ∧ x.val - k < bs.length then bs[x.val - k] else s.reg x := by
  induction bs generalizing s k with
  | nil => simp [State.setRegsFrom]
  | cons b bs ih =>
    rw [State.setRegsFrom, ih]
    by_cases hk : x.val = k
    · subst hk
      have : ¬ (x.val + 1 ≤ x.val) := by omega
      simp [this, State.reg, Vector.get_eq_getElem]
    · have hne : k ≠ x.val := fun e => hk e.symm
      have hv : ({ s with v := s.v.setIfInBounds k b } : State).reg x = s.reg x := by
        simp [State.reg, Vector.get_eq_getElem, hne]
      rw [hv]
      by_cases h : k + 1 ≤ x.val ∧ x.val - (k + 1) < bs.length
      · have h' : k ≤ x.val ∧ x.val - k < (b :: bs).length := by
          simp only [List.length_cons]; omega
        rw [dif_pos h, dif_pos h', List.getElem_cons, dif_neg (by omega)]
        congr 1
      · have h' : ¬ (k ≤ x.val ∧ x.val - k < (b :: bs).length) := by
          simp only [List.length_cons]; omega
        rw [dif_neg h, dif_neg h']

/-- `V[0]` to `V[x]` are `x + 1` bytes. -/
theorem State.length_regsThrough (s : State) (x : Reg) : (s.regsThrough x).length = x.val + 1 := by
  simp [State.regsThrough]

/-- The `k`-th byte of a block store is `V[k]`. -/
theorem State.getElem_regsThrough (s : State) (x k : Reg) (h : k.val < (s.regsThrough x).length) :
    (s.regsThrough x)[k.val] = s.reg k := by
  simp [State.regsThrough, State.reg, Vector.get_eq_getElem]

/-! ### Keys -/

/-- Everything the key index check can do. -/
theorem keyIndex_cases (b : Byte) :
    (∃ h : b.toNat < 16, keyIndex b = .ok ⟨b.toNat, h⟩) ∨
    (15 < b.toNat ∧ keyIndex b = .error (.invalidKeyIndex b.toNat)) := by
  unfold keyIndex
  split
  · next h => exact .inl ⟨h, rfl⟩
  · exact .inr ⟨by omega, rfl⟩

/-- The priority encoder answers no key exactly when none is down. -/
theorem State.lowestKey_none (s : State) : s.lowestKey = none ↔ ∀ k, s.key k = false := by
  simp [State.lowestKey, List.find?_eq_none]

/-- The priority encoder answers a key exactly when it is the least one down. -/
theorem State.lowestKey_some (s : State) (k : Key) :
    s.lowestKey = some k ↔ s.key k = true ∧ ∀ j, j < k → s.key j = false := by
  rw [State.lowestKey, List.find?_eq_some_iff_getElem]
  constructor
  · rintro ⟨hk, i, hi, he, hlt⟩
    refine ⟨hk, fun j hj => ?_⟩
    have hik : i = k.val := by simpa using congrArg Fin.val he
    have := hlt j.val (by rw [hik]; exact hj)
    simpa using this
  · rintro ⟨hk, hlt⟩
    refine ⟨hk, k.val, by simp, by simp, fun j hj => ?_⟩
    have := hlt ⟨j, by omega⟩ hj
    simpa using this

/-! ### Draws -/

@[simp] theorem State.draw8_fst (s : State) : s.draw8.1 = Config.rndDraw s.draws := rfl
@[simp] theorem State.draw8_snd (s : State) : s.draw8.2 = { s with draws := s.draws + 1 } := rfl

end Sys2Proof.Machine
end

