-- ==== Sys2Proof/Laws/Sprite.lean ====
section
/-! SUPPORT. What the display operations do to one pixel. -/

namespace Sys2Proof.Machine

/-- A pixel read after a pixel write. -/
theorem Display.pixel_setPixel (d : Display) (row row' : Fin 32) (col col' : Fin 64) (b : Bool) :
    (d.setPixel row col b).pixel row' col' = if row' = row ∧ col' = col then b else d.pixel row' col' := by
  simp only [Display.pixel, Display.setPixel, Vector.get_eq_getElem, Vector.getElem_set]
  by_cases hr : row' = row
  · subst hr
    by_cases hc : col' = col
    · simp [hc]
    · have : col.val ≠ col'.val := fun e => hc (Fin.ext e.symm)
      simp [hc, this]
  · have : row.val ≠ row'.val := fun e => hr (Fin.ext e.symm)
    simp [hr, this]

/-- Every pixel of a blank display is dark. -/
theorem blankDisplay_pixel (row : Fin 32) (col : Fin 64) : blankDisplay.pixel row col = false := by
  simp [Display.pixel, blankDisplay, Vector.get_eq_getElem]

/-- Two displays with the same pixels are the same. -/
theorem Display.ext_pixel {d e : Display} (h : ∀ row col, d.pixel row col = e.pixel row col) : d = e := by
  refine Vector.ext fun r hr => Vector.ext fun c hc => ?_
  simpa [Display.pixel, Vector.get_eq_getElem] using h ⟨r, hr⟩ ⟨c, hc⟩

/-- A pixel after one sprite bit: exclusive-ored if it is the bit's own. -/
theorem Drawing.pixel_plot (g : Drawing) (row row' : Fin 32) (col col' : Fin 64) (bit : Bool) :
    (g.plot row col bit).disp.pixel row' col' =
      (g.disp.pixel row' col' ^^ (decide (row' = row ∧ col' = col) && bit)) := by
  rw [Drawing.plot, Display.pixel_setPixel]
  by_cases h : row' = row ∧ col' = col
  · obtain ⟨h1, h2⟩ := h
    subst h1 h2
    simp
  · simp [h]

@[simp] theorem Drawing.collision_plot (g : Drawing) (row : Fin 32) (col : Fin 64) (bit : Bool) :
    (g.plot row col bit).collision = (g.collision || (bit && g.disp.pixel row col)) := rfl

/-- A drawn sprite writes the buffer and the flag register, and nothing else. -/
theorem State.setDrawing_eq (s : State) (g : Drawing) :
    s.setDrawing g = ({ s with disp := g.disp } : State).setReg flagReg (flagByte g.collision) := rfl

end Sys2Proof.Machine
end

