-- ==== Sys2Proof/Laws/Exec.lean ====
section
/-! SUPPORT. Everything each meaning that can fault can do, said once: its own effect where its check passes, its fault
raised on the state it started from where the check fails. -/

namespace Sys2Proof.Machine

/-- A fault handed to the host leaves the core, the draws and the host's list alone. -/
theorem State.faulted_raise (s : State) (f : Fault) (instr : Option Word) :
    Faulted f instr s (s.raise f instr) := by
  simp [Faulted, CoreEq]

/-- A fault handed to the host changes the host's part alone. -/
theorem Faulted.frame {f : Fault} {instr : Option Word} {s t : State} (h : Faulted f instr s t)
    {rs : List Reg} {ps : List Part} (hp : Part.host ∈ ps) : Frame rs ps s t := by
  obtain ⟨⟨h1, h2, h3, h4, h5, h6, h7, h8, h9, h10⟩, h11, -⟩ := h
  refine ⟨fun r _ => State.reg_congr h1 r, fun p hq => ?_⟩
  cases p <;> simp_all [Part.Same]

/-- Everything CALL can do. -/
theorem execCall_cases (nnn : Addr12) (s : State) :
    (∃ h : s.sp.val < 16, execCall nnn s = .next { s with
      stack := s.stack.set s.sp.val s.pc h
      sp := ⟨s.sp.val + 1, by omega⟩
      pc := addrOperand nnn }) ∨
    (s.sp.val = 16 ∧ execCall nnn s = .next (s.raiseExec .stackOverflow)) := by
  rcases s.push_cases s.pc with ⟨h, e⟩ | ⟨h, e⟩
  · exact .inl ⟨h, by rw [execCall, e]; rfl⟩
  · exact .inr ⟨h, by rw [execCall, e]; rfl⟩

/-- Everything RET can do. -/
theorem execRet_cases (k : Nibble) (s : State) :
    (∃ _ : s.sp.val ≠ 0, execRet k s = .next { s with
      sp := ⟨s.sp.val - 1, by omega⟩
      pc := s.stack.get ⟨s.sp.val - 1, by omega⟩ }) ∨
    (s.sp.val = 0 ∧ execRet k s = .next (s.raiseExec .stackUnderflow)) := by
  rcases s.popPc_cases with ⟨h, e⟩ | ⟨h, e⟩
  · exact .inl ⟨h, by rw [execRet, e]; rfl⟩
  · exact .inr ⟨h, by rw [execRet, e]; rfl⟩

/-- Everything BCD can do. -/
theorem execBcd_cases (x : Reg) (s : State) :
    (s.base + 3 ≤ 0x1000 ∧
      execBcd x s = .next { s with mem := s.mem.writeList s.base (bcdDigits (s.reg x)) }) ∨
    (0x1000 < s.base + 3 ∧ execBcd x s = .next (s.raiseExec (.addressOutOfRange (s.base + 2)))) := by
  rcases s.storeBlock_cases s.base (bcdDigits (s.reg x)) with ⟨e, h⟩ | ⟨e, -, h⟩
  · exact .inl ⟨h.resolve_left (by simp [bcdDigits]), by rw [execBcd, e]; rfl⟩
  · exact .inr ⟨h, by rw [execBcd, e]; rfl⟩

/-- Everything STR can do. -/
theorem execStr_cases (x : Reg) (s : State) :
    (s.base + x.val < 0x1000 ∧
      execStr x s = .next { s with mem := s.mem.writeList s.base (s.regsThrough x) }) ∨
    (0x1000 ≤ s.base + x.val ∧
      execStr x s = .next (s.raiseExec (.addressOutOfRange (s.base + x.val)))) := by
  have hl := s.length_regsThrough x
  rcases s.storeBlock_cases s.base (s.regsThrough x) with ⟨e, h⟩ | ⟨e, -, h⟩
  · refine .inl ⟨?_, by rw [execStr, e]; rfl⟩
    rcases h with h | h
    · simp [h] at hl
    · omega
  · refine .inr ⟨by omega, ?_⟩
    rw [execStr, e, hl]
    rfl

/-- Everything LDR can do. -/
theorem execLdr_cases (x : Reg) (s : State) :
    (s.base + x.val < 0x1000 ∧ execLdr x s = .next
      (s.setRegsFrom 0 ((List.range (x.val + 1)).map fun k => s.mem.read (s.base + k)))) ∨
    (0x1000 ≤ s.base + x.val ∧
      execLdr x s = .next (s.raiseExec (.addressOutOfRange (s.base + x.val)))) := by
  rcases s.loadBlock_cases s.base (x.val + 1) with ⟨e, h⟩ | ⟨e, -, h⟩
  · exact .inl ⟨by omega, by rw [execLdr, e]; rfl⟩
  · exact .inr ⟨by omega, by rw [execLdr, e]; rfl⟩

/-- Everything DRW can do. -/
theorem execDrw_cases (x y : Reg) (n : Nibble) (s : State) :
    ((n.toNat = 0 ∨ s.base + n.toNat ≤ 0x1000) ∧ execDrw x y n s = .next
      (s.setDrawing (drawSprite s.disp (s.reg x) (s.reg y)
        ((List.range n.toNat).map fun k => s.mem.read (s.base + k))))) ∨
    (0 < n.toNat ∧ 0x1000 < s.base + n.toNat ∧
      execDrw x y n s = .next (s.raiseExec (.addressOutOfRange (s.base + n.toNat - 1)))) := by
  rcases s.loadBlock_cases s.base n.toNat with ⟨e, h⟩ | ⟨e, h0, h⟩
  · exact .inl ⟨h, by rw [execDrw, e]; rfl⟩
  · exact .inr ⟨h0, h, by rw [execDrw, e]; rfl⟩

/-- Everything SKP can do. -/
theorem execSkp_cases (x : Reg) (s : State) :
    (∃ h : (s.reg x).toNat < 16, execSkp x s = .next (s.skipIf (s.key ⟨(s.reg x).toNat, h⟩))) ∨
    (15 < (s.reg x).toNat ∧
      execSkp x s = .next (s.raiseExec (.invalidKeyIndex (s.reg x).toNat))) := by
  rcases keyIndex_cases (s.reg x) with ⟨h, e⟩ | ⟨h, e⟩
  · exact .inl ⟨h, by rw [execSkp, e]; rfl⟩
  · exact .inr ⟨h, by rw [execSkp, e]; rfl⟩

/-- Everything SKNP can do. -/
theorem execSknp_cases (x : Reg) (s : State) :
    (∃ h : (s.reg x).toNat < 16, execSknp x s = .next (s.skipIf (!s.key ⟨(s.reg x).toNat, h⟩))) ∨
    (15 < (s.reg x).toNat ∧
      execSknp x s = .next (s.raiseExec (.invalidKeyIndex (s.reg x).toNat))) := by
  rcases keyIndex_cases (s.reg x) with ⟨h, e⟩ | ⟨h, e⟩
  · exact .inl ⟨h, by rw [execSknp, e]; rfl⟩
  · exact .inr ⟨h, by rw [execSknp, e]; rfl⟩

/-- Everything LD Vx,K can do. -/
theorem execLdVxK_cases (x : Reg) (s : State) :
    (∃ k, s.lowestKey = some k ∧ execLdVxK x s = .next (s.setReg x (BitVec.ofNat 8 k.val))) ∨
    (s.lowestKey = none ∧ execLdVxK x s = .next s.rewind) := by
  rw [execLdVxK]
  cases h : s.lowestKey with
  | some k => exact .inl ⟨k, rfl, rfl⟩
  | none => exact .inr ⟨rfl, rfl⟩

end Sys2Proof.Machine
end

