-- ==== Sys2Proof/Laws/PerInstr.lean ====
section
/-! SUPPORT. The fields of an encoded word, and for every instruction: its word lies in a row of the opcode table whose
fields give the instruction back. -/

namespace Sys2Proof

/-! ### Fields of the formats (R72) -/

theorem regNibble_toFin (x : Reg) : (regNibble x).toFin = x := rfl

theorem fieldNnn_formatA (n1 : Nibble) (nnn : Addr12) : fieldNnn (formatA n1 nnn) = nnn :=
  BitVec.extractLsb'_append_eq_right (a := n1) (b := nnn)

theorem fieldNn_formatXB (n1 : Nibble) (x : Reg) (nn : Byte) : fieldNn (formatXB n1 x nn) = nn :=
  (BitVec.extractLsb'_append_eq_of_add_le (xhi := n1) (xlo := regNibble x ++ nn) (by decide)).trans
    (BitVec.extractLsb'_append_eq_right (a := regNibble x) (b := nn))

theorem fieldX_formatXB (n1 : Nibble) (x : Reg) (nn : Byte) : fieldX (formatXB n1 x nn) = x :=
  congrArg BitVec.toFin
    ((BitVec.extractLsb'_append_eq_of_add_le (xhi := n1) (xlo := regNibble x ++ nn) (by decide)).trans
      (BitVec.extractLsb'_append_eq_left (a := regNibble x) (b := nn)))

theorem fieldN2_formatZ (k : Nibble) (low : Byte) : fieldN2 (formatZ k low) = k :=
  (BitVec.extractLsb'_append_eq_of_add_le (xhi := (0x0 : Nibble)) (xlo := k ++ low) (by decide)).trans
    (BitVec.extractLsb'_append_eq_left (a := k) (b := low))

theorem fieldX_formatXY (n1 : Nibble) (x y : Reg) (n4 : Nibble) : fieldX (formatXY n1 x y n4) = x :=
  congrArg BitVec.toFin
    ((BitVec.extractLsb'_append_eq_of_add_le (xhi := n1)
      (xlo := regNibble x ++ (regNibble y ++ n4)) (by decide)).trans
      (BitVec.extractLsb'_append_eq_left (a := regNibble x) (b := regNibble y ++ n4)))

theorem fieldY_formatXY (n1 : Nibble) (x y : Reg) (n4 : Nibble) : fieldY (formatXY n1 x y n4) = y :=
  congrArg BitVec.toFin
    (((BitVec.extractLsb'_append_eq_of_add_le (xhi := n1)
      (xlo := regNibble x ++ (regNibble y ++ n4)) (by decide)).trans
      (BitVec.extractLsb'_append_eq_of_add_le (xhi := regNibble x) (xlo := regNibble y ++ n4)
        (by decide))).trans (BitVec.extractLsb'_append_eq_left (a := regNibble y) (b := n4)))

theorem fieldN_formatXY (n1 : Nibble) (x y : Reg) (n4 : Nibble) : fieldN (formatXY n1 x y n4) = n4 :=
  ((BitVec.extractLsb'_append_eq_of_add_le (xhi := n1)
    (xlo := regNibble x ++ (regNibble y ++ n4)) (by decide)).trans
    (BitVec.extractLsb'_append_eq_of_add_le (xhi := regNibble x) (xlo := regNibble y ++ n4)
      (by decide))).trans (BitVec.extractLsb'_append_eq_right (a := regNibble y) (b := n4))

/-! ### The fixed bits of the formats -/

theorem nibble_and_ones (n : Nibble) : n &&& 15#4 = n := BitVec.and_allOnes

theorem byte_and_ones (b : Byte) : b &&& 255#8 = b := BitVec.and_allOnes

theorem formatA_major (n1 : Nibble) (nnn : Addr12) : formatA n1 nnn &&& 0xF000 = formatA n1 0 := by
  show n1 ++ nnn &&& (0xF : Nibble) ++ (0 : Addr12) = n1 ++ (0 : Addr12)
  rw [BitVec.and_append]
  simp [nibble_and_ones]

theorem formatXB_major (n1 : Nibble) (x : Reg) (nn : Byte) :
    formatXB n1 x nn &&& 0xF000 = formatA n1 0 := formatA_major n1 (regNibble x ++ nn)

theorem formatXB_low (n1 : Nibble) (x : Reg) (nn : Byte) :
    formatXB n1 x nn &&& 0xF0FF = formatXB n1 0 nn := by
  show n1 ++ (regNibble x ++ nn) &&& (0xF : Nibble) ++ ((0 : Nibble) ++ (0xFF : Byte)) =
    n1 ++ ((0 : Nibble) ++ nn)
  rw [BitVec.and_append, BitVec.and_append]
  simp [nibble_and_ones, byte_and_ones]

theorem formatZ_low (k : Nibble) (low : Byte) : formatZ k low &&& 0xF0FF = formatZ 0 low := by
  show (0x0 : Nibble) ++ (k ++ low) &&& (0xF : Nibble) ++ ((0 : Nibble) ++ (0xFF : Byte)) =
    (0x0 : Nibble) ++ ((0 : Nibble) ++ low)
  rw [BitVec.and_append, BitVec.and_append]
  simp [byte_and_ones]

theorem formatXY_major (n1 : Nibble) (x y : Reg) (n4 : Nibble) :
    formatXY n1 x y n4 &&& 0xF000 = formatA n1 0 :=
  formatA_major n1 (regNibble x ++ (regNibble y ++ n4))

theorem formatXY_minor (n1 : Nibble) (x y : Reg) (n4 : Nibble) :
    formatXY n1 x y n4 &&& 0xF00F = formatXY n1 0 0 n4 := by
  show n1 ++ (regNibble x ++ (regNibble y ++ n4)) &&&
      (0xF : Nibble) ++ ((0 : Nibble) ++ ((0 : Nibble) ++ (0xF : Nibble))) =
    n1 ++ ((0 : Nibble) ++ ((0 : Nibble) ++ n4))
  rw [BitVec.and_append, BitVec.and_append, BitVec.and_append]
  simp [nibble_and_ones]

/-! ### Every instruction's word lies in its row -/

namespace Laws.WordInRow

/-- The word of the instruction matches a row of the table, and that row reads the instruction back from it. -/
def Statement (i : Instr) : Prop :=
  ∃ r ∈ opcodeTable false, encode i &&& r.mask = r.value ∧ r.build (encode i) = i

/-- A row is named by its place in the table. -/
theorem of_row (i : Instr) (n : Fin (opcodeTable false).length)
    (h : encode i &&& (opcodeTable false)[n].mask = (opcodeTable false)[n].value)
    (hb : (opcodeTable false)[n].build (encode i) = i) : Statement i :=
  ⟨_, List.getElem_mem n.isLt, h, hb⟩

theorem nop (k : Nibble) : Statement (.nop k) :=
  of_row _ ⟨0, by decide⟩ (formatZ_low k 0x00) (congrArg Instr.nop (fieldN2_formatZ k 0x00))
theorem cls (k : Nibble) : Statement (.cls k) :=
  of_row _ ⟨1, by decide⟩ (formatZ_low k 0xE0) (congrArg Instr.cls (fieldN2_formatZ k 0xE0))
theorem ret (k : Nibble) : Statement (.ret k) :=
  of_row _ ⟨2, by decide⟩ (formatZ_low k 0xEE) (congrArg Instr.ret (fieldN2_formatZ k 0xEE))
theorem jmp (nnn : Addr12) : Statement (.jmp nnn) :=
  of_row _ ⟨3, by decide⟩ (formatA_major 0x1 nnn) (congrArg Instr.jmp (fieldNnn_formatA 0x1 nnn))
theorem call (nnn : Addr12) : Statement (.call nnn) :=
  of_row _ ⟨4, by decide⟩ (formatA_major 0x2 nnn) (congrArg Instr.call (fieldNnn_formatA 0x2 nnn))
theorem seVxNn (x : Reg) (nn : Byte) : Statement (.seVxNn x nn) :=
  of_row _ ⟨5, by decide⟩ (formatXB_major 0x3 x nn)
    (congrArg₂ Instr.seVxNn (fieldX_formatXB 0x3 x nn) (fieldNn_formatXB 0x3 x nn))
theorem sneVxNn (x : Reg) (nn : Byte) : Statement (.sneVxNn x nn) :=
  of_row _ ⟨6, by decide⟩ (formatXB_major 0x4 x nn)
    (congrArg₂ Instr.sneVxNn (fieldX_formatXB 0x4 x nn) (fieldNn_formatXB 0x4 x nn))
theorem seVxVy (x y : Reg) : Statement (.seVxVy x y) :=
  of_row _ ⟨7, by decide⟩ (formatXY_minor 0x5 x y 0x0)
    (congrArg₂ Instr.seVxVy (fieldX_formatXY 0x5 x y 0x0) (fieldY_formatXY 0x5 x y 0x0))
theorem ldVxNn (x : Reg) (nn : Byte) : Statement (.ldVxNn x nn) :=
  of_row _ ⟨8, by decide⟩ (formatXB_major 0x6 x nn)
    (congrArg₂ Instr.ldVxNn (fieldX_formatXB 0x6 x nn) (fieldNn_formatXB 0x6 x nn))
theorem addVxNn (x : Reg) (nn : Byte) : Statement (.addVxNn x nn) :=
  of_row _ ⟨9, by decide⟩ (formatXB_major 0x7 x nn)
    (congrArg₂ Instr.addVxNn (fieldX_formatXB 0x7 x nn) (fieldNn_formatXB 0x7 x nn))
theorem ldVxVy (x y : Reg) : Statement (.ldVxVy x y) :=
  of_row _ ⟨10, by decide⟩ (formatXY_minor 0x8 x y 0x0)
    (congrArg₂ Instr.ldVxVy (fieldX_formatXY 0x8 x y 0x0) (fieldY_formatXY 0x8 x y 0x0))
theorem or (x y : Reg) : Statement (.or x y) :=
  of_row _ ⟨11, by decide⟩ (formatXY_minor 0x8 x y 0x1)
    (congrArg₂ Instr.or (fieldX_formatXY 0x8 x y 0x1) (fieldY_formatXY 0x8 x y 0x1))
theorem and (x y : Reg) : Statement (.and x y) :=
  of_row _ ⟨12, by decide⟩ (formatXY_minor 0x8 x y 0x2)
    (congrArg₂ Instr.and (fieldX_formatXY 0x8 x y 0x2) (fieldY_formatXY 0x8 x y 0x2))
theorem xor (x y : Reg) : Statement (.xor x y) :=
  of_row _ ⟨13, by decide⟩ (formatXY_minor 0x8 x y 0x3)
    (congrArg₂ Instr.xor (fieldX_formatXY 0x8 x y 0x3) (fieldY_formatXY 0x8 x y 0x3))
theorem addVxVy (x y : Reg) : Statement (.addVxVy x y) :=
  of_row _ ⟨14, by decide⟩ (formatXY_minor 0x8 x y 0x4)
    (congrArg₂ Instr.addVxVy (fieldX_formatXY 0x8 x y 0x4) (fieldY_formatXY 0x8 x y 0x4))
theorem sub (x y : Reg) : Statement (.sub x y) :=
  of_row _ ⟨15, by decide⟩ (formatXY_minor 0x8 x y 0x5)
    (congrArg₂ Instr.sub (fieldX_formatXY 0x8 x y 0x5) (fieldY_formatXY 0x8 x y 0x5))
theorem shr (x y : Reg) : Statement (.shr x y) :=
  of_row _ ⟨16, by decide⟩ (formatXY_minor 0x8 x y 0x6)
    (congrArg₂ Instr.shr (fieldX_formatXY 0x8 x y 0x6) (fieldY_formatXY 0x8 x y 0x6))
theorem subn (x y : Reg) : Statement (.subn x y) :=
  of_row _ ⟨17, by decide⟩ (formatXY_minor 0x8 x y 0x7)
    (congrArg₂ Instr.subn (fieldX_formatXY 0x8 x y 0x7) (fieldY_formatXY 0x8 x y 0x7))
theorem shl (x y : Reg) : Statement (.shl x y) :=
  of_row _ ⟨18, by decide⟩ (formatXY_minor 0x8 x y 0xE)
    (congrArg₂ Instr.shl (fieldX_formatXY 0x8 x y 0xE) (fieldY_formatXY 0x8 x y 0xE))
theorem sneVxVy (x y : Reg) : Statement (.sneVxVy x y) :=
  of_row _ ⟨19, by decide⟩ (formatXY_minor 0x9 x y 0x0)
    (congrArg₂ Instr.sneVxVy (fieldX_formatXY 0x9 x y 0x0) (fieldY_formatXY 0x9 x y 0x0))
theorem ldINnn (nnn : Addr12) : Statement (.ldINnn nnn) :=
  of_row _ ⟨20, by decide⟩ (formatA_major 0xA nnn) (congrArg Instr.ldINnn (fieldNnn_formatA 0xA nnn))
theorem jmpV0 (nnn : Addr12) : Statement (.jmpV0 nnn) :=
  of_row _ ⟨21, by decide⟩ (formatA_major 0xB nnn) (congrArg Instr.jmpV0 (fieldNnn_formatA 0xB nnn))
theorem rnd (x : Reg) (nn : Byte) : Statement (.rnd x nn) :=
  of_row _ ⟨22, by decide⟩ (formatXB_major 0xC x nn)
    (congrArg₂ Instr.rnd (fieldX_formatXB 0xC x nn) (fieldNn_formatXB 0xC x nn))
theorem drw (x y : Reg) (n : Nibble) : Statement (.drw x y n) :=
  of_row _ ⟨23, by decide⟩ (formatXY_major 0xD x y n)
    (by
      show Instr.drw (fieldX _) (fieldY _) (fieldN _) = _
      simp only [encode, fieldX_formatXY, fieldY_formatXY, fieldN_formatXY])
theorem skp (x : Reg) : Statement (.skp x) :=
  of_row _ ⟨24, by decide⟩ (formatXB_low 0xE x 0x9E) (congrArg Instr.skp (fieldX_formatXB 0xE x 0x9E))
theorem sknp (x : Reg) : Statement (.sknp x) :=
  of_row _ ⟨25, by decide⟩ (formatXB_low 0xE x 0xA1) (congrArg Instr.sknp (fieldX_formatXB 0xE x 0xA1))
theorem ldVxDt (x : Reg) : Statement (.ldVxDt x) :=
  of_row _ ⟨26, by decide⟩ (formatXB_low 0xF x 0x07) (congrArg Instr.ldVxDt (fieldX_formatXB 0xF x 0x07))
theorem ldVxK (x : Reg) : Statement (.ldVxK x) :=
  of_row _ ⟨27, by decide⟩ (formatXB_low 0xF x 0x0A) (congrArg Instr.ldVxK (fieldX_formatXB 0xF x 0x0A))
theorem ldDtVx (x : Reg) : Statement (.ldDtVx x) :=
  of_row _ ⟨28, by decide⟩ (formatXB_low 0xF x 0x15) (congrArg Instr.ldDtVx (fieldX_formatXB 0xF x 0x15))
theorem ldStVx (x : Reg) : Statement (.ldStVx x) :=
  of_row _ ⟨29, by decide⟩ (formatXB_low 0xF x 0x18) (congrArg Instr.ldStVx (fieldX_formatXB 0xF x 0x18))
theorem addIVx (x : Reg) : Statement (.addIVx x) :=
  of_row _ ⟨30, by decide⟩ (formatXB_low 0xF x 0x1E) (congrArg Instr.addIVx (fieldX_formatXB 0xF x 0x1E))
theorem ldFVx (x : Reg) : Statement (.ldFVx x) :=
  of_row _ ⟨31, by decide⟩ (formatXB_low 0xF x 0x29) (congrArg Instr.ldFVx (fieldX_formatXB 0xF x 0x29))
theorem bcd (x : Reg) : Statement (.bcd x) :=
  of_row _ ⟨32, by decide⟩ (formatXB_low 0xF x 0x33) (congrArg Instr.bcd (fieldX_formatXB 0xF x 0x33))
theorem str (x : Reg) : Statement (.str x) :=
  of_row _ ⟨33, by decide⟩ (formatXB_low 0xF x 0x55) (congrArg Instr.str (fieldX_formatXB 0xF x 0x55))
theorem ldr (x : Reg) : Statement (.ldr x) :=
  of_row _ ⟨34, by decide⟩ (formatXB_low 0xF x 0x65) (congrArg Instr.ldr (fieldX_formatXB 0xF x 0x65))

end Laws.WordInRow

end Sys2Proof
end

