-- ==== Sys2Proof/Tests/Slice0.lean ====
section
/-! SUPPORT. The model's own tests: words written out from the spec's encodings, one step on small states with the results
`spec/95_test_vectors.md` gives (its vector is named beside each), and for each statement a state that meets its
hypotheses. -/

namespace Sys2Proof.Tests

open Sys2Proof.Machine

/-! ### Helpers -/

/-- The next state of an outcome. -/
def nextOf : Host.Outcome State Fault Refusal → Option State
  | .next s => some s
  | _ => none

/-- One step that fetches the given word, at 0x200 unless `PC` is elsewhere. -/
def onWord (w : Nat) (s : State) : Option State := nextOf (step (s.withFetchWord 16 w))

/-- The reset state with some general registers set. -/
def regs (l : List (Reg × Byte)) : State := l.foldl (fun s p => s.setReg p.1 p.2) State.reset

/-- What a step left in two registers, `PC` and the number of faults. -/
def look (x y : Reg) (o : Option State) : Option (Byte × Byte × Word × Nat) :=
  o.map fun t => (t.reg x, t.reg y, t.pc, t.faults.length)

/-! ### Well-formedness: each check refuses an ill-formed term -/

theorem test_wf_refuses_nop : Instr.wellFormedWith true (.nop 3) = false := by decide
theorem test_wf_refuses_cls : Instr.wellFormedWith true (.cls 1) = false := by decide
theorem test_wf_refuses_ret : Instr.wellFormedWith true (.ret 15) = false := by decide
theorem test_wf_accepts : Instr.wellFormedWith true (.nop 0) = true ∧ (Instr.nop 3).WellFormed := by decide

/-! ### Decoding: words written out from R75 -/

theorem test_decode_zero_family :
    decode (0b0000#4 ++ 0b0000#4 ++ 0b00000000#8) = some (.nop 0) ∧
    decode (0b0000#4 ++ 0b1010#4 ++ 0b00000000#8) = some (.nop 0xA) ∧
    decode (0b0000#4 ++ 0b0001#4 ++ 0b11100000#8) = some (.cls 1) ∧
    decode (0b0000#4 ++ 0b0000#4 ++ 0b11101110#8) = some (.ret 0) := by decide

theorem test_decode_address_forms :
    decode (0b0001#4 ++ 0b001000001000#12) = some (.jmp 0x208) ∧
    decode (0b0010#4 ++ 0b001100000000#12) = some (.call 0x300) ∧
    decode (0b1010#4 ++ 0b001011110000#12) = some (.ldINnn 0x2F0) ∧
    decode (0b1011#4 ++ 0b111100000001#12) = some (.jmpV0 0xF01) := by decide

theorem test_decode_byte_forms :
    decode (0b0011#4 ++ 0b0011#4 ++ 0b00101010#8) = some (.seVxNn 3 0x2A) ∧
    decode (0b0100#4 ++ 0b0011#4 ++ 0b00101010#8) = some (.sneVxNn 3 0x2A) ∧
    decode (0b0110#4 ++ 0b0001#4 ++ 0b00000011#8) = some (.ldVxNn 1 3) ∧
    decode (0b0111#4 ++ 0b0010#4 ++ 0b00000101#8) = some (.addVxNn 2 5) ∧
    decode (0b1100#4 ++ 0b0011#4 ++ 0b00001111#8) = some (.rnd 3 0x0F) := by decide

theorem test_decode_register_forms :
    decode (0b0101#4 ++ 0b0001#4 ++ 0b0010#4 ++ 0b0000#4) = some (.seVxVy 1 2) ∧
    decode (0b1001#4 ++ 0b0001#4 ++ 0b0010#4 ++ 0b0000#4) = some (.sneVxVy 1 2) ∧
    decode (0b1000#4 ++ 0b0011#4 ++ 0b0100#4 ++ 0b0000#4) = some (.ldVxVy 3 4) ∧
    decode (0b1000#4 ++ 0b0000#4 ++ 0b0001#4 ++ 0b0001#4) = some (.or 0 1) ∧
    decode (0b1000#4 ++ 0b0000#4 ++ 0b0001#4 ++ 0b0010#4) = some (.and 0 1) ∧
    decode (0b1000#4 ++ 0b0000#4 ++ 0b0001#4 ++ 0b0011#4) = some (.xor 0 1) ∧
    decode (0b1000#4 ++ 0b0000#4 ++ 0b0001#4 ++ 0b0100#4) = some (.addVxVy 0 1) ∧
    decode (0b1000#4 ++ 0b0000#4 ++ 0b0001#4 ++ 0b0101#4) = some (.sub 0 1) ∧
    decode (0b1000#4 ++ 0b0101#4 ++ 0b1010#4 ++ 0b0110#4) = some (.shr 5 10) ∧
    decode (0b1000#4 ++ 0b0000#4 ++ 0b0001#4 ++ 0b0111#4) = some (.subn 0 1) ∧
    decode (0b1000#4 ++ 0b0101#4 ++ 0b0000#4 ++ 0b1110#4) = some (.shl 5 0) ∧
    decode (0b1101#4 ++ 0b1111#4 ++ 0b0000#4 ++ 0b0001#4) = some (.drw 15 0 1) := by decide

theorem test_decode_key_and_misc_forms :
    decode (0b1110#4 ++ 0b0001#4 ++ 0b10011110#8) = some (.skp 1) ∧
    decode (0b1110#4 ++ 0b0001#4 ++ 0b10100001#8) = some (.sknp 1) ∧
    decode (0b1111#4 ++ 0b0101#4 ++ 0b00000111#8) = some (.ldVxDt 5) ∧
    decode (0b1111#4 ++ 0b0011#4 ++ 0b00001010#8) = some (.ldVxK 3) ∧
    decode (0b1111#4 ++ 0b0101#4 ++ 0b00010101#8) = some (.ldDtVx 5) ∧
    decode (0b1111#4 ++ 0b0000#4 ++ 0b00011000#8) = some (.ldStVx 0) ∧
    decode (0b1111#4 ++ 0b0010#4 ++ 0b00011110#8) = some (.addIVx 2) ∧
    decode (0b1111#4 ++ 0b0100#4 ++ 0b00101001#8) = some (.ldFVx 4) ∧
    decode (0b1111#4 ++ 0b0011#4 ++ 0b00110011#8) = some (.bcd 3) ∧
    decode (0b1111#4 ++ 0b0010#4 ++ 0b01010101#8) = some (.str 2) ∧
    decode (0b1111#4 ++ 0b1111#4 ++ 0b01100101#8) = some (.ldr 15) := by decide

/-- The illegal words of `95_test_vectors.md` §2.7. -/
theorem test_decode_illegal :
    [0x0001, 0x00E1, 0x00FF, 0x0230, 0x5001, 0x800F, 0x8008, 0x9001, 0xE000, 0xE09F, 0xE1A0, 0xF000, 0xF166,
      0xF075, 0xF085, 0xF01F, 0xFFFF].all (fun w => (decode w).isNone) = true := by decide

/-- C2: under `STRICT_N2` nibble 2 must be 0. -/
theorem test_decode_strict :
    decodeWith true 0x0A00 = none ∧ decodeWith true 0x0000 = some (.nop 0) := by decide

/-- R51, R76: the bytes `0x60 0x05` are the word 0x6005; the decoder answers the bytes after the word. -/
theorem test_decode_bytes :
    decodeBytes [0x60, 0x05, 0x61] = .ok (.ldVxNn 0 5, [0x61]) ∧
    decodeBytes [0x60] = .error .truncated ∧
    decodeBytes [0x51, 0x21] = .error (.unsupportedOpcode 0x5121) ∧
    decodeTableWord 16 0x6005 = some (.ldVxNn 0 5) ∧
    encodeBytes (.addVxVy 0 1) = [0x80, 0x14] := by decide

/-! ### The tick and control transfer (§2.1) -/

/-- C1, C2. -/
theorem test_nop : nextOf (step State.reset) = some { State.reset with pc := 0x202 } := by decide
/-- C3. -/
theorem test_ret :
    (onWord 0x00EE { State.reset with
      pc := 0x300, sp := 1, stack := State.reset.stack.set 0 0x202 }).map
      (fun t => (t.sp, t.pc)) = some (0, 0x202) := by decide
/-- C4, P6(a). -/
theorem test_ret_underflow :
    (onWord 0x00EE State.reset).map (fun t => (t.sp, t.pc, t.faults)) =
      some (0, 0x202, [⟨.stackUnderflow, some 0x200⟩]) := by decide
/-- C5. -/
theorem test_call :
    (onWord 0x2300 State.reset).map (fun t => (t.stack.get 0, t.sp, t.pc)) =
      some (0x202, 1, 0x300) := by decide
/-- C6, P6(b). -/
theorem test_call_overflow :
    (onWord 0x2300 { State.reset with sp := 16 }).map (fun t => (t.sp, t.pc, t.response)) =
      some (16, 0x202, .fault ⟨.stackOverflow, some 0x200⟩) := by decide
/-- C7. -/
theorem test_jmp : (onWord 0x1208 State.reset).map (fun t => t.pc) = some 0x208 := by decide
/-- C9, C11. -/
theorem test_jmp_v0 :
    (onWord 0xB300 (regs [(0, 4)])).map (fun t => t.pc) = some 0x304 ∧
    (onWord 0xBF01 (regs [(0, 0xFF)])).map (fun t => t.pc) = some 0 := by decide
/-- C12, C13. -/
theorem test_se_nn :
    (onWord 0x332A (regs [(3, 0x2A)])).map (fun t => t.pc) = some 0x204 ∧
    (onWord 0x332A (regs [(3, 0x2B)])).map (fun t => t.pc) = some 0x202 := by decide
/-- C14, C15. -/
theorem test_sne_nn :
    (onWord 0x432A (regs [(3, 0x2A)])).map (fun t => t.pc) = some 0x202 ∧
    (onWord 0x432A (regs [])).map (fun t => t.pc) = some 0x204 := by decide
/-- C16, C17. -/
theorem test_se_vy :
    (onWord 0x5120 (regs [(1, 7), (2, 7)])).map (fun t => t.pc) = some 0x204 ∧
    (onWord 0x5120 (regs [(1, 7), (2, 8)])).map (fun t => t.pc) = some 0x202 := by decide
/-- C19, C20. -/
theorem test_sne_vy :
    (onWord 0x9120 (regs [(1, 7), (2, 8)])).map (fun t => t.pc) = some 0x204 ∧
    (onWord 0x9120 (regs [(1, 7), (2, 7)])).map (fun t => t.pc) = some 0x202 := by decide
/-- C22. -/
theorem test_illegal_word :
    (onWord 0x5121 (regs [(1, 7), (2, 7)])).map (fun t => (t.pc, t.response)) =
      some (0x202, .fault ⟨.unsupportedOpcode 0x5121, some 0x200⟩) := by decide
/-- C26. -/
theorem test_fetch_fault :
    nextOf (step { State.reset with pc := 0xFFF }) =
      some { State.reset with
        pc := 0xFFF
        response := .fault ⟨.addressOutOfRange 0xFFF, some 0xFFF⟩
        faults := [⟨.addressOutOfRange 0xFFF, some 0xFFF⟩] } := by decide
/-- C28: an odd `PC` fetches the two bytes there. -/
theorem test_odd_pc :
    look 10 0 (nextOf (step { State.reset with
      pc := 0x201, mem := [(0x200, 0x12), (0x201, 0x6A), (0x202, 0xBC)] })) =
      some (0xBC, 0, 0x203, 0) := by decide

/-! ### ALU (§2.2) -/

/-- A1, S1. -/
theorem test_ld_nn : look 15 0 (onWord 0x6FAB State.reset) = some (0xAB, 0, 0x202, 0) := by decide
/-- A2, A4. -/
theorem test_add_nn :
    look 2 15 (onWord 0x7205 (regs [(2, 0xFE)])) = some (3, 0, 0x202, 0) ∧
    look 15 0 (onWord 0x7F01 (regs [(15, 0xFF)])) = some (0, 0, 0x202, 0) := by decide
/-- A5. -/
theorem test_ld_vy : look 3 4 (onWord 0x8340 (regs [(4, 0x9C)])) = some (0x9C, 0x9C, 0x202, 0) := by decide
/-- A6. -/
theorem test_or :
    look 0 15 (onWord 0x8011 (regs [(0, 0x0F), (1, 0xF0), (15, 0x55)])) = some (0xFF, 0x55, 0x202, 0) := by decide
/-- A7. -/
theorem test_and :
    look 0 15 (onWord 0x8012 (regs [(0, 0x3C), (1, 0x0F), (15, 0x55)])) = some (0x0C, 0x55, 0x202, 0) := by decide
/-- A8. -/
theorem test_xor :
    look 0 15 (onWord 0x8013 (regs [(0, 0x3C), (1, 0x0F), (15, 0x55)])) = some (0x33, 0x55, 0x202, 0) := by decide
/-- A11, A18, A19. -/
theorem test_add :
    look 0 15 (onWord 0x8014 (regs [(0, 0xC8), (1, 0x64)])) = some (0x2C, 1, 0x202, 0) ∧
    look 15 1 (onWord 0x8F14 (regs [(15, 5), (1, 2)])) = some (0, 2, 0x202, 0) ∧
    look 0 15 (onWord 0x80F4 (regs [(0, 0xFF), (15, 1)])) = some (0, 1, 0x202, 0) := by decide
/-- A20, A22, A28. -/
theorem test_sub :
    look 0 15 (onWord 0x8015 (regs [(0, 5), (1, 7)])) = some (0xFE, 0, 0x202, 0) ∧
    look 0 15 (onWord 0x8015 (regs [(0, 5), (1, 5)])) = some (0, 1, 0x202, 0) ∧
    look 15 1 (onWord 0x8F15 (regs [(15, 9), (1, 5)])) = some (1, 5, 0x202, 0) := by decide
/-- A29, A32. -/
theorem test_subn :
    look 0 15 (onWord 0x8017 (regs [(0, 5), (1, 7)])) = some (2, 1, 0x202, 0) ∧
    look 0 15 (onWord 0x8017 (regs [(0, 1)])) = some (0xFF, 0, 0x202, 0) := by decide
/-- A36, A38. -/
theorem test_shr :
    look 5 15 (onWord 0x8506 (regs [(5, 0xFF)])) = some (0x7F, 1, 0x202, 0) ∧
    look 5 15 (onWord 0x85A6 (regs [(5, 6), (10, 0xFF)])) = some (3, 0, 0x202, 0) := by decide
/-- A41, A47. -/
theorem test_shl :
    look 5 15 (onWord 0x850E (regs [(5, 0x81)])) = some (2, 1, 0x202, 0) ∧
    look 15 0 (onWord 0x8F0E (regs [(15, 0x7F)])) = some (0, 0, 0x202, 0) := by decide
/-- A49: for every draw; the draw is taken. -/
theorem test_rnd : (onWord 0xC300 (regs [(3, 9)])).map (fun t => (t.reg 3, t.draws)) = some (0, 1) := by
  have h : ∀ b : Byte, b &&& 0 = 0 := fun b => by simp
  show some ((Config.rndDraw 0 &&& 0 : Byte), 1) = some (0, 1)
  rw [h]

/-! ### Address register and timers (§2.3) -/

/-- I1. -/
theorem test_ld_i : (onWord 0xA2F0 State.reset).map (fun t => t.i) = some 0x2F0 := by decide
/-- I3, I4. -/
theorem test_add_i :
    (onWord 0xF21E { regs [(2, 1), (15, 7)] with i := 0xFFFF }).map (fun t => (t.i, t.reg 15)) = some (0, 7) ∧
    (onWord 0xF21E { regs [(2, 1)] with i := 0x0FFF }).map (fun t => (t.i, t.faults)) = some (0x1000, []) := by
  decide
/-- I5, I8. -/
theorem test_ld_f :
    (onWord 0xF429 (regs [(4, 0x0A)])).map (fun t => t.i) = some 0x32 ∧
    (onWord 0xF429 (regs [(4, 0x1A)])).map (fun t => t.i) = some 0x82 := by decide
/-- T1. -/
theorem test_ld_vx_dt :
    (onWord 0xF507 { State.reset with dt := 0x3C }).map (fun t => (t.reg 5, t.dt)) = some (0x3C, 0x3C) := by decide
/-- T2. -/
theorem test_ld_dt : (onWord 0xF515 (regs [(5, 0x3C)])).map (fun t => (t.dt, t.st)) = some (0x3C, 0) := by decide
/-- T3. -/
theorem test_ld_st :
    (onWord 0xF018 (regs [(0, 2)])).map (fun t => (t.st, t.soundActive)) = some (2, true) := by decide
/-- T5, T6, T8. -/
theorem test_timer_tick :
    (nextOf (step { State.reset with dt := 1, st := 1, events := [.timerTick] })).map
      (fun t => (t.dt, t.st, t.beep)) = some (0, 0, true) ∧
    (nextOf (step { State.reset with dt := 2, st := 2, events := [.timerTick] })).map
      (fun t => (t.dt, t.st, t.beep)) = some (1, 1, false) ∧
    (nextOf (step { State.reset with st := 5, events := [.timerTick] })).map
      (fun t => (t.dt, t.st, t.beep)) = some (0, 4, false) ∧
    beepCondition .reaching1 2 = true := by decide

/-! ### Memory (§2.4) -/

/-- M6, M8. -/
theorem test_bcd :
    (onWord 0xF333 { regs [(3, 0x7B)] with i := 0x0FFD }).map
      (fun t => [0xFFC, 0xFFD, 0xFFE, 0xFFF].map t.mem.read) = some [0, 1, 2, 3] ∧
    (onWord 0xF333 { regs [(3, 0x7B)] with i := 0xFFFF }).map
      (fun t => (t.response, t.mem.read 0, t.pc)) =
      some (.fault ⟨.addressOutOfRange 0x10001, some 0x200⟩, 0xF0, 0x202) := by decide
/-- M9, M11. -/
theorem test_str :
    (onWord 0xF255 { regs [(0, 0x11), (1, 0x22), (2, 0x33), (3, 0x44)] with i := 0x0400 }).map
      (fun t => ([0x400, 0x401, 0x402, 0x403].map t.mem.read, t.i)) = some ([0x11, 0x22, 0x33, 0], 0x400) ∧
    (onWord 0xF155 { regs [(0, 0x11), (1, 0x22)] with i := 0x0FFF }).map
      (fun t => (t.response, t.mem.read 0xFFF)) =
      some (.fault ⟨.addressOutOfRange 0x1000, some 0x200⟩, 0) := by decide
/-- M14, M16. -/
theorem test_ldr :
    (onWord 0xF265 { regs [(3, 0x77)] with
      i := 0x0300, mem := [(0x300, 1), (0x301, 5), (0x302, 6), (0x303, 9)] }).map
      (fun t => [0, 1, 2, 3].map t.reg) = some [1, 5, 6, 0x77] ∧
    (onWord 0xF165 { regs [(0, 0x77), (1, 0x88)] with i := 0x0FFF }).map
      (fun t => (t.reg 0, t.reg 1, t.response)) =
      some (0x77, 0x88, .fault ⟨.addressOutOfRange 0x1000, some 0x200⟩) := by decide

/-! ### Display (§2.5) -/

/-- D9. -/
theorem test_cls :
    (onWord 0x00E0 { State.reset with disp := State.reset.disp.setPixel 31 63 true }).map
      (fun t => t.disp) = some State.reset.disp := by decide
/-- D1, D2: wrap in both axes, and a collision. -/
theorem test_drw :
    (onWord 0xD011 { regs [(0, 63), (1, 31)] with i := 0x300, mem := [(0x300, 0xFF)] }).map
      (fun t => ([63, 0, 6, 7, 62].map (t.disp.pixel 31), t.disp.pixel 30 0, t.reg 15)) =
      some ([true, true, true, false, false], false, 0) ∧
    (onWord 0xD011 { regs [(0, 63), (1, 31)] with
      i := 0x300, mem := [(0x300, 0xFF)], disp := State.reset.disp.setPixel 31 0 true }).map
      (fun t => ([63, 0, 6].map (t.disp.pixel 31), t.reg 15)) = some ([true, false, true], 1) := by decide
/-- D4, D6, D8. -/
theorem test_drw_corners :
    (onWord 0xD010 { regs [(15, 9)] with i := 0xFFFF }).map (fun t => (t.reg 15, t.faults)) = some (0, []) ∧
    (onWord 0xD012 { regs [(15, 9)] with i := 0x0FFF }).map (fun t => (t.reg 15, t.response)) =
      some (9, .fault ⟨.addressOutOfRange 0x1000, some 0x200⟩) ∧
    (onWord 0xDF01 { regs [(15, 3)] with i := 0x300, mem := [(0x300, 0xC0)] }).map
      (fun t => ([2, 3, 4, 5].map (t.disp.pixel 0), t.reg 15)) =
      some ([false, true, true, false], 0) := by decide

/-! ### Keypad (§2.6) -/

/-- K7, K5. -/
theorem test_skp :
    (onWord 0xE19E { regs [(1, 15)] with keys := State.reset.keys.set 15 true }).map (fun t => t.pc) =
      some 0x204 ∧
    (onWord 0xE19E (regs [(1, 16)])).map (fun t => (t.pc, t.response)) =
      some (0x202, .fault ⟨.invalidKeyIndex 16, some 0x200⟩) := by decide
/-- K3, K4. -/
theorem test_sknp :
    (onWord 0xE1A1 (regs [(1, 7)])).map (fun t => t.pc) = some 0x204 ∧
    (onWord 0xE1A1 { regs [(1, 7)] with keys := State.reset.keys.set 7 true }).map (fun t => t.pc) =
      some 0x202 := by decide
/-- K8, K9. -/
theorem test_ld_k :
    look 3 0 (onWord 0xF30A (regs [(3, 0x55)])) = some (0x55, 0, 0x200, 0) ∧
    look 3 0 (onWord 0xF30A { regs [(3, 0x55)] with
      keys := (State.reset.keys.set 9 true).set 4 true }) = some (4, 0, 0x202, 0) := by decide

/-! ### Reset, load and the ports (§2.8) -/

/-- R34: the glyphs of 4 and F, and the length of the table. -/
theorem test_font :
    [20, 21, 22, 23, 24].map State.reset.mem.read = [0x90, 0x90, 0xF0, 0x10, 0x10] ∧
    [75, 76, 77, 78, 79, 80].map State.reset.mem.read = [0xF0, 0x80, 0xF0, 0x80, 0x80, 0] ∧
    fontTable.length = 80 := by decide
/-- RL1. -/
theorem test_reset_event :
    nextOf (step { regs [(3, 7)] with
      pc := 0x345, st := 4, sp := 3, mem := [(0x200, 0x12)], events := [.reset, .pcGet] }) =
      some { State.reset with events := [.pcGet] } := by decide
/-- `Load` writes at 0x200 upward. -/
theorem test_load :
    (nextOf (step { State.reset with events := [.load [0x60, 0x05]] })).map
      (fun t => (t.mem, t.pc, t.response)) = some ([(0x200, 0x60), (0x201, 5)], 0x200, .ok) := by decide
/-- The port answers and refuses (R188). -/
theorem test_register_port :
    (nextOf (step { regs [(3, 7)] with events := [.regGet 3] })).map (fun t => t.response) =
      some (.byte 7) ∧
    (nextOf (step { State.reset with events := [.regSet 16 1] })).map (fun t => t.response) =
      some (.fault ⟨.invalidRegisterIndex 16, none⟩) ∧
    (nextOf (step { State.reset with events := [.pcSet 0xFFFF] })).map (fun t => t.pc) =
      some 0xFFFF := by decide

/-! ### Witnesses: for each statement with hypotheses, a state that meets them -/

theorem witness_StepRunsDecodedInstruction :
    State.reset.nextEvent = .cpuTick ∧ State.reset.pc.toNat < 0xFFF ∧
    decode (State.reset.mem.read State.reset.pc.toNat ++ State.reset.mem.read (State.reset.pc.toNat + 1)) =
      some (.nop 0) ∧ (Instr.nop 0).WellFormed := by decide

/-- A state whose next tick meets the illegal word 0x5121. -/
def atIllegal : State := State.reset.withFetchWord 16 0x5121

theorem witness_IllegalWordFaultsAndAdvances :
    atIllegal.nextEvent = .cpuTick ∧ atIllegal.pc.toNat < 0xFFF ∧
    (0x5121 : Word) = atIllegal.mem.read atIllegal.pc.toNat ++ atIllegal.mem.read (atIllegal.pc.toNat + 1) ∧
    decode 0x5121 = none := by decide

theorem witness_FetchFaultChangesNothing :
    State.nextEvent { State.reset with pc := 0xFFF } = .cpuTick ∧
    0xFFF ≤ (({ State.reset with pc := 0xFFF } : State).pc).toNat := by decide

theorem witness_DecodeOfEncode : Instr.wellFormedWith true (.ret 0) = true := by decide

theorem witness_EncodeOfDecode : decodeWith true 0x00EE = some (.ret 0) := by decide

theorem witness_StepKeepsMemoryCanonical :
    MemoryCanonical State.reset ∧ step State.reset = .next { State.reset with pc := 0x202 } :=
  ⟨(by decide : Memory.wf []), rfl⟩

theorem witness_StepKeepsPcInReach :
    PcInReach State.reset ∧ step State.reset = .next { State.reset with pc := 0x202 } :=
  ⟨⟨by decide, by decide, fun _ h => absurd h (by simp [State.reset])⟩, rfl⟩

theorem witness_ResetEventRestoresTableValues :
    State.nextEvent { State.reset with events := [.reset] } = .reset := by decide

theorem witness_CallPushesReturnAddress : (({ State.reset with sp := 15 } : State).sp).val < 16 := by decide

theorem witness_RetPopsReturnAddress :
    0 < (({ State.reset with sp := 1 } : State).sp).val ∧
    (0 : Fin 16).val + 1 = (({ State.reset with sp := 1 } : State).sp).val := by decide

theorem witness_StackFaults :
    (({ State.reset with sp := 16 } : State).sp).val = 16 ∧ State.reset.sp.val = 0 := by decide

theorem witness_CallThenRetRestoresPc :
    State.reset.sp.val < 16 ∧
    ∃ t, exec (.call 0x300) State.reset = .next t := ⟨by decide, _, rfl⟩

theorem witness_BcdStoresDigits :
    MemoryCanonical { State.reset with i := 0xFFD } ∧
    State.base { State.reset with i := 0xFFD } + 2 ≤ 0xFFF ∧
    MemoryCanonical { State.reset with i := 0xFFE } ∧
    0xFFF < State.base { State.reset with i := 0xFFE } + 2 := by
  unfold MemoryCanonical; decide

theorem witness_StrStoresRegisters :
    MemoryCanonical { State.reset with i := 0xFF0 } ∧
    State.base { State.reset with i := 0xFF0 } + (15 : Reg).val ≤ 0xFFF ∧
    MemoryCanonical { State.reset with i := 0xFF1 } ∧
    0xFFF < State.base { State.reset with i := 0xFF1 } + (15 : Reg).val := by
  unfold MemoryCanonical; decide

theorem witness_LdrLoadsRegisters :
    State.base { State.reset with i := 0xFFF } + (0 : Reg).val ≤ 0xFFF ∧
    0xFFF < State.base { State.reset with i := 0xFFF } + (1 : Reg).val := by decide

theorem witness_DrwDrawsSprite :
    State.base { State.reset with i := 0xFF1 } + (15 : Nibble).toNat ≤ 0x1000 ∧
    0 < (15 : Nibble).toNat ∧ 0x1000 < State.base { State.reset with i := 0xFF2 } + (15 : Nibble).toNat := by
  decide

/-- Both kinds of location: coordinates in plain registers, and a coordinate in `VF` that the flag leaves as it was. -/
theorem witness_SecondDrawRestoresDisplay :
    State.reset.base + (5 : Nibble).toNat ≤ 0x1000 ∧
    (nextOf (exec (.drw 0 15 5) State.reset)).map
      (fun t => (t.reg 0, t.reg 15)) = some (State.reset.reg 0, State.reset.reg 15) := by decide

theorem witness_KeySkips : ((regs [(1, 15)]).reg 1).toNat = (15 : Key).val := by decide

theorem witness_KeySkipsFaultOnInvalidIndex : 15 < ((regs [(1, 16)]).reg 1).toNat := by decide

/-- A state with the keys 9 and 4 down. -/
def keysDown : State := { State.reset with keys := (State.reset.keys.set 9 true).set 4 true }

theorem witness_KeyWaitScansAscending :
    keysDown.key 4 = true ∧ (∀ j : Key, j < 4 → keysDown.key j = false) ∧
    (∀ k : Key, State.reset.key k = false) := by decide

/-- A state whose next tick runs LD V3,K. -/
def atKeyWait : State := State.reset.withFetchWord 16 0xF30A

theorem witness_KeyWaitTickChangesNothing :
    atKeyWait.nextEvent = .cpuTick ∧ atKeyWait.pc.toNat < 0xFFF ∧
    atKeyWait.mem.read atKeyWait.pc.toNat ++ atKeyWait.mem.read (atKeyWait.pc.toNat + 1) =
      encode (.ldVxK 3) ∧ (∀ k : Key, atKeyWait.key k = false) := by decide

theorem witness_TimerTickCountsDown :
    State.nextEvent { State.reset with events := [.timerTick] } = .timerTick := by decide

theorem witness_BeepOnLeavingOne :
    State.nextEvent { State.reset with st := 1, events := [.timerTick] } = .timerTick := by decide

theorem witness_KeySetSetsOneLine :
    State.nextEvent { State.reset with events := [.keySet 15 true] } = .keySet 15 true := by decide

theorem witness_PixelQueryReturnsRowMajor :
    State.nextEvent { State.reset with events := [.pixelQuery] } = .pixelQuery := by decide

/-- A zero image of a given length is next. -/
def loading (len : Nat) : State := { State.reset with events := [.load (List.replicate len 0)] }

theorem witness_LoadWritesImage :
    MemoryCanonical (loading 3584) ∧ (loading 3584).nextEvent = .load (List.replicate 3584 0) ∧
    (List.replicate 3584 (0 : Byte)).length ≤ 3584 ∧
    (loading 3585).nextEvent = .load (List.replicate 3585 0) ∧
    3584 < (List.replicate 3585 (0 : Byte)).length :=
  ⟨(by decide : Memory.wf []), rfl, List.length_replicate.le, rfl,
    Nat.lt_of_lt_of_eq (Nat.lt_succ_self 3584) List.length_replicate.symm⟩

theorem witness_RegisterPort :
    (({ State.reset with events := [.regSet 15 1, .regGet 15] } : State).events =
      [.regSet 15 1, .regGet 15] ∧ 15 < 16) ∧
    (({ State.reset with events := [.regSet 16 1, .regGet 16] } : State).events =
      [.regSet 16 1, .regGet 16] ∧ 15 < 16) ∧
    State.nextEvent { State.reset with events := [.pcSet 0xFFFF] } = .pcSet 0xFFFF ∧
    State.nextEvent { State.reset with events := [.pcGet] } = .pcGet ∧
    State.nextEvent { State.reset with events := [.iGet] } = .iGet := by decide

theorem witness_EveryInstructionKeepsItsFootprint :
    ∃ t, exec (.drw 0 1 5) State.reset = .next t := ⟨_, rfl⟩

theorem witness_EveryHostEventKeepsItsFootprint :
    State.nextEvent { State.reset with events := [.regSet 15 1] } ≠ .cpuTick ∧
    State.nextEvent { State.reset with events := [.regSet 15 1] } ≠ .reset ∧
    ∃ t, step { State.reset with events := [.regSet 15 1] } = .next t := ⟨by decide, by decide, _, rfl⟩

theorem witness_ExecuteFaultsArePrecise : ∃ t, exec (.ret 0) State.reset = .next t := ⟨_, rfl⟩

theorem witness_OutputsNeverFeedBack :
    SameInputs State.reset { State.reset with beep := true } ∧
    (∃ t, step State.reset = .next t) ∧ ∃ t, step { State.reset with beep := true } = .next t :=
  ⟨⟨⟨rfl, rfl, rfl, rfl, rfl, rfl, rfl, rfl, rfl, rfl⟩, rfl, rfl⟩, ⟨_, rfl⟩, _, rfl⟩

/-- `V[0]` and `V[1]` hold the word 0x602A, and `I` is 0x20A (program P4). -/
def aboutToModify : State := { regs [(0, 0x60), (1, 0x2A)] with i := 0x20A }

theorem witness_StoreIsSeenByNextFetch :
    MemoryCanonical aboutToModify ∧ aboutToModify.base + 1 ≤ 0xFFF ∧
    aboutToModify.reg 0 ++ aboutToModify.reg 1 = encode (.ldVxNn 0 0x2A) ∧
    (Instr.ldVxNn 0 0x2A).WellFormed ∧
    ((nextOf (exec (.str 1) aboutToModify)).map fun t =>
      State.nextEvent { t with pc := aboutToModify.i }) = some .cpuTick :=
  ⟨(by decide : Memory.wf []), by decide⟩

end Sys2Proof.Tests
end

section
/-! The core is never stuck (`93_implementation_defined.md` U9): each level of a step, from the meanings up to the host's
event, answers a next state. -/

namespace Sys2Proof.Machine

/-- The execute phase answers a next state: a meaning with a check ends by `State.settle`, LD Vx,K in one of its two
updates, every other meaning in its one update. -/
theorem exec_answers (i : Instr) (s : State) : ∃ t, exec i s = .next t := by
  cases i with
  | call | ret | bcd | str | ldr | drw | skp | sknp => exact s.settle_answers _
  | ldVxK x =>
    rcases execLdVxK_cases x s with ⟨k, -, e⟩ | ⟨-, e⟩
    · exact ⟨_, e⟩
    · exact ⟨_, e⟩
  | _ => exact ⟨_, rfl⟩

/-- The decode and execute phases answer a next state, for a legal word and for an illegal one (R92, R173). -/
theorem decodeAndExec_answers (op : Word) (s : State) : ∃ t, decodeAndExec op s = .next t := by
  rw [decodeAndExec]
  cases decode op with
  | some i => exact exec_answers i s
  | none => exact ⟨_, rfl⟩

/-- An instruction tick answers a next state, whether or not the word at `PC` can be fetched (R90, R91). -/
theorem cpuTick_answers (s : State) : ∃ t, cpuTick s = .next t := by
  rw [cpuTick]
  cases s.fetch with
  | ok op => exact decodeAndExec_answers op s.advance
  | error f => exact ⟨_, rfl⟩

/-- Every event is enabled in every state: the tick by its phases, every other event by its one update (R9, R10). -/
theorem runEvent_answers (e : HostEvent) (s : State) : ∃ t, runEvent e s = .next t := by
  cases e with
  | cpuTick => exact cpuTick_answers s
  | _ => exact ⟨_, rfl⟩

/-- Settles O4: a step is the host's next event, and every event answers a next state. -/
theorem everyStepAnswersNext : Obligations.EveryStepAnswersNext :=
  fun s => runEvent_answers s.nextEvent s.beginEvent

end Sys2Proof.Machine
end

section
/-! Frames: an update that writes one part of the state leaves every other part alone, and frames compose. -/

namespace Sys2Proof.Machine

variable {rs : List Reg} {ps : List Part} {s t u : State}

/-- Agreement on a part is transitive. -/
theorem Part.Same.trans {p : Part} (h : p.Same s t) (h' : p.Same t u) : p.Same s u := by
  cases p with
  | mem => exact fun a => (h' a).trans (h a)
  | screen => exact fun row col => (h' row col).trans (h row col)
  | call => exact ⟨h'.1.trans h.1, h'.2.trans h.2⟩
  | host => simp_all [Part.Same]
  | _ => exact Eq.trans h' h

/-- A state is within every frame of itself. -/
theorem Frame.refl (s : State) : Frame rs ps s s :=
  ⟨fun _ _ => rfl, fun p _ => by cases p <;> simp [Part.Same]⟩

/-- Two updates within a frame are within it together. -/
theorem Frame.trans (h : Frame rs ps s t) (h' : Frame rs ps t u) : Frame rs ps s u :=
  ⟨fun r hr => (h'.1 r hr).trans (h.1 r hr), fun p hp => (h.2 p hp).trans (h'.2 p hp)⟩

/-- A frame that names more parts holds too. -/
theorem Frame.mono_parts {qs : List Part} (h : Frame rs ps s t) (hs : ps ⊆ qs) : Frame rs qs s t :=
  ⟨h.1, fun p hp => h.2 p fun hm => hp (hs hm)⟩

theorem frame_setReg {x : Reg} (hx : x ∈ rs) (s : State) (b : Byte) : Frame rs ps s (s.setReg x b) := by
  refine ⟨fun r hr => ?_, fun p _ => by cases p <;> simp [Part.Same]⟩
  have hne : r ≠ x := fun e => hr (e ▸ hx)
  rw [State.reg_setReg, if_neg hne]

/-- The result of a flag-setting instruction and its flag are two register writes (R123). -/
theorem frame_setWithFlag {x : Reg} (hx : x ∈ rs) (hf : flagReg ∈ rs) (s : State) (b : Byte) (f : Bool) :
    Frame rs ps s (s.setWithFlag x b f) :=
  (frame_setReg hx s b).trans (frame_setReg hf _ _)

theorem frame_setPc (hp : .pc ∈ ps) (s : State) (a : Word) : Frame rs ps s (s.setPc a) :=
  ⟨fun _ _ => rfl, fun p _ => by cases p <;> simp_all [Part.Same]⟩

theorem frame_skipIf (hp : .pc ∈ ps) (s : State) (c : Bool) : Frame rs ps s (s.skipIf c) := by
  rw [State.skipIf_eq]
  exact frame_setPc hp s _

theorem frame_setI (hp : .i ∈ ps) (s : State) (a : Word) : Frame rs ps s (s.setI a) :=
  ⟨fun _ _ => rfl, fun p _ => by cases p <;> simp_all [Part.Same]⟩

theorem frame_setDt (hp : .dt ∈ ps) (s : State) (b : Byte) : Frame rs ps s (s.setDt b) :=
  ⟨fun _ _ => rfl, fun p _ => by cases p <;> simp_all [Part.Same]⟩

theorem frame_setSt (hp : .st ∈ ps) (s : State) (b : Byte) : Frame rs ps s (s.setSt b) :=
  ⟨fun _ _ => rfl, fun p _ => by cases p <;> simp_all [Part.Same]⟩

theorem frame_draw8 (hp : .draws ∈ ps) (s : State) : Frame rs ps s s.draw8.2 :=
  ⟨fun _ _ => rfl, fun p _ => by cases p <;> simp_all [Part.Same]⟩

theorem frame_mem (hp : .mem ∈ ps) (s : State) (m : Memory) : Frame rs ps s { s with mem := m } :=
  ⟨fun _ _ => rfl, fun p _ => by cases p <;> simp_all [Part.Same]⟩

theorem frame_disp (hp : .screen ∈ ps) (s : State) (d : Display) : Frame rs ps s { s with disp := d } :=
  ⟨fun _ _ => rfl, fun p _ => by cases p <;> simp_all [Part.Same]⟩

/-- CALL and RET write the call stack and `PC` (R94, R96). -/
theorem frame_call (hc : .call ∈ ps) (hp : .pc ∈ ps) (s : State) (n : Fin 17) (st : Vector Word 16) (a : Word) :
    Frame rs ps s { s with sp := n, stack := st, pc := a } :=
  ⟨fun _ _ => rfl, fun p _ => by cases p <;> simp_all [Part.Same]⟩

/-- A block load writes no register outside the block. -/
theorem frame_setRegsFrom (s : State) (k : Nat) (bs : List Byte)
    (h : ∀ r : Reg, k ≤ r.val → r.val - k < bs.length → r ∈ rs) : Frame rs ps s (s.setRegsFrom k bs) := by
  refine ⟨fun r hr => ?_, fun p _ => ?_⟩
  · rw [State.reg_setRegsFrom, dif_neg fun hk => hr (h r hk.1 hk.2)]
  · rw [State.setRegsFrom_eq]
    cases p <;> simp [Part.Same]

/-- A drawn sprite writes the screen and the flag register (R151). -/
theorem frame_setDrawing (hp : .screen ∈ ps) (hf : flagReg ∈ rs) (s : State) (g : Drawing) :
    Frame rs ps s (s.setDrawing g) := by
  rw [State.setDrawing_eq]
  exact (frame_disp hp s g.disp).trans (frame_setReg hf _ _)

end Sys2Proof.Machine
end

section
/-! What an instruction can do, said once for all instructions: its own effect within its own footprint, or its one kind
of fault raised on the state it started from (`60_exceptions.md` R177, R178). -/

namespace Sys2Proof.Machine

/-- The parts an instruction's own effect writes: the host's part is written by a fault alone. -/
def ownParts (i : Instr) : List Part := (partsWritten i).filter fun p => p ≠ .host

@[simp] theorem mem_ownParts {i : Instr} {p : Part} : p ∈ ownParts i ↔ p ∈ partsWritten i ∧ p ≠ .host := by
  simp [ownParts]

/-- An instruction that can fault lists the host's part. -/
theorem host_mem_of_mayRaise {i : Instr} {f : Fault} (h : mayRaise i f) : .host ∈ partsWritten i := by
  cases i <;> simp_all [mayRaise, partsWritten]

/-- How an instruction may end: in a state its own footprint allows, or in its own fault. -/
def EndsWithin (i : Instr) (s t : State) : Prop :=
  Frame (regsWritten i) (ownParts i) s t ∨ ∃ f, mayRaise i f ∧ t = s.raiseExec f

/-- Every instruction ends within its own footprint or in its own fault. -/
theorem exec_endsWithin {i : Instr} {s t : State} (h : exec i s = .next t) : EndsWithin i s t := by
  cases i with
  | nop => cases h; exact .inl (.refl s)
  | ldVxNn | addVxNn | ldVxVy | or | and | xor | ldVxDt =>
    cases h; exact .inl (frame_setReg (by simp [regsWritten]) s _)
  | addVxVy | sub | subn | shr | shl =>
    cases h; exact .inl (frame_setWithFlag (by simp [regsWritten]) (by simp [regsWritten]) s _ _)
  | rnd =>
    cases h
    exact .inl ((frame_draw8 (by simp [partsWritten]) s).trans (frame_setReg (by simp [regsWritten]) _ _))
  | jmp | jmpV0 => cases h; exact .inl (frame_setPc (by simp [partsWritten]) s _)
  | seVxNn | sneVxNn | seVxVy | sneVxVy => cases h; exact .inl (frame_skipIf (by simp [partsWritten]) s _)
  | ldINnn | addIVx | ldFVx => cases h; exact .inl (frame_setI (by simp [partsWritten]) s _)
  | ldDtVx => cases h; exact .inl (frame_setDt (by simp [partsWritten]) s _)
  | ldStVx => cases h; exact .inl (frame_setSt (by simp [partsWritten]) s _)
  | cls => cases h; exact .inl (frame_disp (by simp [partsWritten]) s _)
  | ldVxK x =>
    rcases execLdVxK_cases x s with ⟨k, -, e⟩ | ⟨-, e⟩
    · cases e.symm.trans h; exact .inl (frame_setReg (by simp [regsWritten]) s _)
    · cases e.symm.trans h; exact .inl (frame_setPc (by simp [partsWritten]) s _)
  | call nnn =>
    rcases execCall_cases nnn s with ⟨hs, e⟩ | ⟨-, e⟩
    · cases e.symm.trans h
      exact .inl (frame_call (by simp [partsWritten]) (by simp [partsWritten]) s _ _ _)
    · cases e.symm.trans h; exact .inr ⟨_, rfl, rfl⟩
  | ret k =>
    rcases execRet_cases k s with ⟨hs, e⟩ | ⟨-, e⟩
    · cases e.symm.trans h
      exact .inl (frame_call (by simp [partsWritten]) (by simp [partsWritten]) s _ s.stack _)
    · cases e.symm.trans h; exact .inr ⟨_, rfl, rfl⟩
  | skp x =>
    rcases execSkp_cases x s with ⟨hk, e⟩ | ⟨hk, e⟩
    · cases e.symm.trans h; exact .inl (frame_skipIf (by simp [partsWritten]) s _)
    · cases e.symm.trans h; exact .inr ⟨_, ⟨_, rfl, hk⟩, rfl⟩
  | sknp x =>
    rcases execSknp_cases x s with ⟨hk, e⟩ | ⟨hk, e⟩
    · cases e.symm.trans h; exact .inl (frame_skipIf (by simp [partsWritten]) s _)
    · cases e.symm.trans h; exact .inr ⟨_, ⟨_, rfl, hk⟩, rfl⟩
  | bcd x =>
    rcases execBcd_cases x s with ⟨-, e⟩ | ⟨hb, e⟩
    · cases e.symm.trans h; exact .inl (frame_mem (by simp [partsWritten]) s _)
    · cases e.symm.trans h; exact .inr ⟨_, ⟨_, rfl, by omega⟩, rfl⟩
  | str x =>
    rcases execStr_cases x s with ⟨-, e⟩ | ⟨hb, e⟩
    · cases e.symm.trans h; exact .inl (frame_mem (by simp [partsWritten]) s _)
    · cases e.symm.trans h; exact .inr ⟨_, ⟨_, rfl, by omega⟩, rfl⟩
  | ldr x =>
    rcases execLdr_cases x s with ⟨-, e⟩ | ⟨hb, e⟩
    · cases e.symm.trans h
      refine .inl (frame_setRegsFrom s 0 _ fun r _ hr => ?_)
      have hle : r ≤ x := by simpa [Nat.lt_succ_iff] using hr
      simpa [regsWritten] using hle
    · cases e.symm.trans h; exact .inr ⟨_, ⟨_, rfl, by omega⟩, rfl⟩
  | drw x y n =>
    rcases execDrw_cases x y n s with ⟨-, e⟩ | ⟨-, hb, e⟩
    · cases e.symm.trans h
      exact .inl (frame_setDrawing (by simp [partsWritten]) (by simp [regsWritten]) s _)
    · cases e.symm.trans h; exact .inr ⟨_, ⟨_, rfl, by omega⟩, rfl⟩

/-- Settles O50: the own effect is within the footprint, and a fault changes the host's part, which an instruction that
can fault lists. -/
theorem everyInstructionKeepsItsFootprint : Obligations.EveryInstructionKeepsItsFootprint := by
  intro i s t h
  rcases exec_endsWithin h with hf | ⟨f, hf, rfl⟩
  · exact hf.mono_parts (List.filter_subset_self _)
  · exact (s.faulted_raise f _).frame (host_mem_of_mayRaise hf)

/-- No instruction touches the events to come. -/
theorem exec_events {i : Instr} {s t : State} (h : exec i s = .next t) : t.events = s.events := by
  rcases exec_endsWithin h with ⟨-, hp⟩ | ⟨f, -, rfl⟩
  · exact (hp .host (by simp)).1
  · rfl

end Sys2Proof.Machine
end

section
/-! The reach of `PC` and of the stacked addresses (`10_state.md` R25): from the state the fetch leaves, with `PC` in 2 to
0x1000, every instruction leads back into the invariant. -/

namespace Sys2Proof.Machine

/-! ### What the host's ports can do -/

/-- Everything `Load` can do (R206). -/
theorem load_cases (bytes : List Byte) (s : State) :
    (bytes.length ≤ 3584 ∧ load bytes s = { s with mem := s.mem.writeList 0x200 bytes }) ∨
    (3584 < bytes.length ∧ load bytes s = s.raise (.addressOutOfRange bytes.length) none) := by
  unfold load
  split
  · next h => exact .inr ⟨h, rfl⟩
  · next h => exact .inl ⟨by omega, by rw [s.writeFrom_ok (by omega)]; rfl⟩

/-- Everything the port's index check can do (R188). -/
theorem regIndex_cases (n : Nat) :
    (∃ h : n < 16, regIndex n = .ok ⟨n, h⟩) ∨ (15 < n ∧ regIndex n = .error (.invalidRegisterIndex n)) := by
  unfold regIndex
  split
  · next h => exact .inl ⟨h, rfl⟩
  · exact .inr ⟨by omega, rfl⟩

/-- Everything `RegGet` can do (R188). -/
theorem regGet_cases (n : Nat) (s : State) :
    (∃ h : n < 16, regGet n s = s.answer (.byte (s.reg ⟨n, h⟩))) ∨
    (15 < n ∧ regGet n s = s.raise (.invalidRegisterIndex n) none) := by
  rcases regIndex_cases n with ⟨h, e⟩ | ⟨h, e⟩
  · exact .inl ⟨h, by rw [regGet, e]; rfl⟩
  · exact .inr ⟨h, by rw [regGet, e]; rfl⟩

/-- Everything `RegSet` can do (R188). -/
theorem regSet_cases (n : Nat) (b : Byte) (s : State) :
    (∃ h : n < 16, regSet n b s = s.setReg ⟨n, h⟩ b) ∨
    (15 < n ∧ regSet n b s = s.raise (.invalidRegisterIndex n) none) := by
  rcases regIndex_cases n with ⟨h, e⟩ | ⟨h, e⟩
  · exact .inl ⟨h, by rw [regSet, e]; rfl⟩
  · exact .inr ⟨h, by rw [regSet, e]; rfl⟩

/-! ### Bounds on the values written to `PC` -/

theorem addrOperand_le (nnn : Addr12) : (addrOperand nnn).toNat ≤ 0xFFF := by
  have h := nnn.isLt
  rw [addrOperand, BitVec.toNat_setWidth]
  omega

theorem jumpTarget_le (v0 : Byte) (nnn : Addr12) : (jumpTarget v0 nnn).toNat ≤ 0xFFF := by
  rw [jumpTarget, BitVec.toNat_ofNat]
  omega

/-- A skip adds 2 at most. -/
theorem skipIf_pc_le {s : State} (h : s.pc.toNat ≤ 0x1000) (c : Bool) : (s.skipIf c).pc.toNat ≤ 0x1002 := by
  rw [State.skipIf_eq, State.setPc_pc]
  split
  · rw [BitVec.toNat_add]; exact (Nat.mod_le _ _).trans (Nat.add_le_add_right h 2)
  · omega

/-! ### The invariant -/

/-- Every stacked address is in 0x0000 to 0x1000. -/
def StackInReach (s : State) : Prop := ∀ j : Fin 16, (s.stack.get j).toNat ≤ 0x1000

/-- `PC` in the range the fetch phase leaves it in. -/
def PcFetched (s : State) : Prop := 2 ≤ s.pc.toNat ∧ s.pc.toNat ≤ 0x1000

/-- The invariant rests on `PC`, the call stack and the events to come alone. -/
theorem PcInReach.congr {s t : State} (h : PcInReach s) (hpc : t.pc = s.pc) (hstack : t.stack = s.stack)
    (hev : t.events = s.events) : PcInReach t := by
  rwa [PcInReach, hpc, hstack, hev]

/-- `PC` after an instruction: where it was for an instruction that does not write it, bounded for each that does. -/
theorem exec_pc_le {i : Instr} {s t : State} (h : exec i s = .next t) (hpc : PcFetched s)
    (hst : StackInReach s) : t.pc.toNat ≤ 0x1002 := by
  obtain ⟨hlo, hhi⟩ := hpc
  cases i with
  | jmp nnn => cases h; exact (addrOperand_le nnn).trans (by decide)
  | jmpV0 nnn => cases h; exact (jumpTarget_le _ nnn).trans (by decide)
  | seVxNn | sneVxNn | seVxVy | sneVxVy => cases h; exact skipIf_pc_le hhi _
  | skp x =>
    rcases execSkp_cases x s with ⟨hk, e⟩ | ⟨-, e⟩
    · cases e.symm.trans h; exact skipIf_pc_le hhi _
    · cases e.symm.trans h; exact hhi.trans (by decide)
  | sknp x =>
    rcases execSknp_cases x s with ⟨hk, e⟩ | ⟨-, e⟩
    · cases e.symm.trans h; exact skipIf_pc_le hhi _
    · cases e.symm.trans h; exact hhi.trans (by decide)
  | ldVxK x =>
    rcases execLdVxK_cases x s with ⟨k, -, e⟩ | ⟨-, e⟩
    · cases e.symm.trans h; exact hhi.trans (by decide)
    · cases e.symm.trans h
      show (s.pc - 2).toNat ≤ 0x1002
      bv_omega
  | call nnn =>
    rcases execCall_cases nnn s with ⟨hs, e⟩ | ⟨-, e⟩
    · cases e.symm.trans h; exact (addrOperand_le nnn).trans (by decide)
    · cases e.symm.trans h; exact hhi.trans (by decide)
  | ret k =>
    rcases execRet_cases k s with ⟨hs, e⟩ | ⟨-, e⟩
    · cases e.symm.trans h; exact (hst _).trans (by decide)
    · cases e.symm.trans h; exact hhi.trans (by decide)
  | _ =>
    have hsame : t.pc = s.pc := (everyInstructionKeepsItsFootprint _ s t h).2 .pc (by simp [partsWritten])
    rw [hsame]
    omega

/-- The call stack after an instruction: CALL pushes the advanced `PC`, no other instruction writes an entry. -/
theorem exec_stackInReach {i : Instr} {s t : State} (h : exec i s = .next t) (hpc : PcFetched s)
    (hst : StackInReach s) : StackInReach t := by
  intro j
  cases i with
  | call nnn =>
    rcases execCall_cases nnn s with ⟨hs, e⟩ | ⟨-, e⟩
    · cases e.symm.trans h
      rw [Vector.get_eq_getElem, Vector.getElem_set]
      split
      · exact hpc.2
      · exact hst j
    · cases e.symm.trans h; exact hst j
  | ret k =>
    rcases execRet_cases k s with ⟨hs, e⟩ | ⟨-, e⟩
    · cases e.symm.trans h; exact hst j
    · cases e.symm.trans h; exact hst j
  | _ =>
    have hsame : t.stack = s.stack :=
      ((everyInstructionKeepsItsFootprint _ s t h).2 .call (by simp [partsWritten])).2
    rw [hsame]
    exact hst j

/-- The fetch advance of a `PC` that can be fetched from leaves it in 2 to 0x1000. -/
theorem pcFetched_advance {s : State} (h : s.pc.toNat < 0xFFF) : PcFetched s.advance := by
  have hadd : (s.pc + 2).toNat = s.pc.toNat + 2 := by bv_omega
  rw [PcFetched, State.advance_eq, State.setPc_pc, hadd]
  omega

/-- A tick keeps the invariant: a fetch fault leaves `PC` alone, an illegal word leaves it advanced. -/
theorem cpuTick_pcInReach {s t : State} (hs : PcInReach s) (h : cpuTick s = .next t) : PcInReach t := by
  rw [cpuTick] at h
  by_cases hlt : s.pc.toNat < 0xFFF
  · rw [s.fetch_ok hlt] at h
    obtain ⟨-, hst, hev⟩ := hs
    have hadv := pcFetched_advance hlt
    simp only [decodeAndExec] at h
    split at h
    · exact ⟨exec_pc_le h hadv hst, exec_stackInReach h hadv hst, exec_events h ▸ hev⟩
    · cases h
      exact ⟨hadv.2.trans (by decide), hst, hev⟩
  · rw [s.fetch_error (by omega)] at h
    cases h
    exact hs.congr rfl rfl rfl

/-- The reset state meets the invariant. -/
theorem pcInReach_reset : PcInReach State.reset :=
  ⟨by decide, fun j => by simp [State.reset, Vector.get_eq_getElem], by simp [State.reset]⟩

/-- Every event but `PcSet` keeps the invariant. -/
theorem runEvent_pcInReach {e : HostEvent} {s t : State} (hs : PcInReach s) (he : ∀ a, e ≠ .pcSet a)
    (h : runEvent e s = .next t) : PcInReach t := by
  cases e with
  | cpuTick => exact cpuTick_pcInReach hs h
  | pcSet a => exact absurd rfl (he a)
  | reset =>
    cases h
    obtain ⟨hpc, hst, -⟩ := pcInReach_reset
    obtain ⟨-, -, hev⟩ := hs
    exact ⟨hpc, hst, hev⟩
  | load bytes =>
    cases h
    rcases load_cases bytes s with ⟨-, e⟩ | ⟨-, e⟩ <;> rw [e] <;> exact hs.congr rfl rfl rfl
  | regGet n =>
    cases h
    rcases regGet_cases n s with ⟨_, e⟩ | ⟨-, e⟩ <;> rw [e] <;> exact hs.congr rfl rfl rfl
  | regSet n b =>
    cases h
    rcases regSet_cases n b s with ⟨_, e⟩ | ⟨-, e⟩ <;> rw [e] <;> exact hs.congr rfl rfl rfl
  | timerTick | keySet | pixelQuery | pcGet | iGet => cases h; exact hs.congr rfl rfl rfl

/-- Taking the next event off the list keeps the invariant. -/
theorem PcInReach.beginEvent {s : State} (h : PcInReach s) : PcInReach s.beginEvent := by
  obtain ⟨hpc, hst, hev⟩ := h
  exact ⟨hpc, hst, fun e he => hev e (List.mem_of_mem_tail he)⟩

/-- Under the invariant the next event is no `PcSet`. -/
theorem PcInReach.nextEvent_ne_pcSet {s : State} (h : PcInReach s) (a : Word) : s.nextEvent ≠ .pcSet a := by
  obtain ⟨-, -, hev⟩ := h
  cases hes : s.events with
  | nil => simp [State.nextEvent, hes]
  | cons e es =>
    have hne : e ≠ .pcSet a := hev e (by simp [hes]) a
    simpa [State.nextEvent, hes] using hne

/-- Settles O11: a step is the host's next event, which is no `PcSet`, and every other event keeps the invariant. -/
theorem stepKeepsPcInReach : Obligations.StepKeepsPcInReach :=
  fun _ _ hs h => runEvent_pcInReach hs.beginEvent hs.nextEvent_ne_pcSet h

/-- Settles O12: reset puts `PC` at 0x200 and every stack entry at 0, and lists no event. -/
theorem resetPcInReach : Obligations.ResetPcInReach := pcInReach_reset

end Sys2Proof.Machine
end

section
/-! No output feeds back (`10_state.md` R39): clearing the outputs before a step changes only the outputs after it.  So a
step is a function of the state with its outputs cleared, and states that differ in outputs alone step alike. -/

namespace Sys2Proof.Machine

/-- The state with every output at its reset value: the result, the pulse and the fault marks. -/
def State.quiet (s : State) : State := { s with response := .ok, beep := false, faults := [] }

/-- Two states have the same inputs exactly when they differ in outputs alone. -/
theorem sameInputs_iff_quiet {s t : State} : SameInputs s t ↔ t.quiet = s.quiet := by
  cases s
  cases t
  simp [SameInputs, CoreEq, State.quiet, and_assoc]

/-- The next state an outcome answers, up to the outputs. -/
def quietNext : Host.Outcome State Fault Refusal → Option State
  | .next t => some t.quiet
  | .fault _ | .refused _ => none

/-- What an operation that may fault answers, up to the outputs. -/
def quietResult (r : Except Fault State) : Except Fault State := r.map State.quiet

/-- An execute phase ends alike, up to the outputs, where its operation does. -/
theorem quietNext_settle {s : State} {r' r : Except Fault State} (h : quietResult r' = quietResult r) :
    quietNext (s.quiet.settle r') = quietNext (s.settle r) := by
  cases r' with
  | ok t' =>
    cases r with
    | ok t => exact congrArg some (Except.ok.inj h)
    | error f => cases h
  | error f' =>
    cases r with
    | ok t => cases h
    | error f => cases h; rfl

/-- A port's event ends alike, up to the outputs, where its operation does. -/
theorem settlePort_quiet {s : State} {r' r : Except Fault State} (h : quietResult r' = quietResult r) :
    (s.quiet.settlePort r').quiet = (s.settlePort r).quiet := by
  cases r' with
  | ok t' =>
    cases r with
    | ok t => exact Except.ok.inj h
    | error f => cases h
  | error f' =>
    cases r with
    | ok t => cases h
    | error f => cases h; rfl

/-- The same value put into states that differ in outputs alone. -/
theorem quietResult_map {α : Type} {r' r : Except Fault α} {g f : α → State} (hr : r' = r)
    (h : ∀ a, (g a).quiet = (f a).quiet) : quietResult (r'.map g) = quietResult (r.map f) := by
  subst hr
  cases r' with
  | ok a => exact congrArg Except.ok (h a)
  | error f => rfl

/-! ### The operations -/

theorem skipIf_quiet (s : State) (c : Bool) : (s.quiet.skipIf c).quiet = (s.skipIf c).quiet := by
  cases c <;> rfl

theorem setRegsFrom_quiet (s : State) (k : Nat) (bs : List Byte) :
    (s.quiet.setRegsFrom k bs).quiet = (s.setRegsFrom k bs).quiet := by
  induction bs generalizing s k with
  | nil => rfl
  | cons b bs ih => exact ih { s with v := s.v.setIfInBounds k b } (k + 1)

theorem push_quiet (s : State) (a : Word) : s.quiet.push a = quietResult (s.push a) := by
  rcases s.push_cases a with ⟨h, e⟩ | ⟨h, e⟩
  · rw [e]; exact dif_pos h
  · rw [e]; exact dif_neg (by show ¬ s.sp.val < 16; omega)

theorem popPc_quiet (s : State) : quietResult s.quiet.popPc = quietResult s.popPc := by
  rcases s.popPc_cases with ⟨h, e⟩ | ⟨h, e⟩
  · have hq : s.quiet.popPc = quietResult s.popPc := by rw [e]; exact dif_neg h
    rw [hq, e]; rfl
  · rw [e]; exact congrArg quietResult (dif_pos h)

/-- CALL's push and jump. -/
theorem push_setPc_quiet (s : State) (a b : Word) :
    quietResult ((s.quiet.push a).map fun t => t.setPc b) = quietResult ((s.push a).map fun t => t.setPc b) := by
  rw [push_quiet]
  cases s.push a <;> rfl

theorem readFrom_quiet (s : State) (base len : Nat) : s.quiet.readFrom base len = s.readFrom base len := by
  induction len generalizing base with
  | zero => rfl
  | succ len ih => rw [State.readFrom, State.readFrom, ih]; rfl

theorem loadBlock_quiet (s : State) (base len : Nat) : s.quiet.loadBlock base len = s.loadBlock base len := by
  rw [State.loadBlock, State.loadBlock, readFrom_quiet]

theorem writeFrom_quiet (s : State) (base : Nat) (bs : List Byte) :
    quietResult (s.quiet.writeFrom base bs) = quietResult (s.writeFrom base bs) := by
  induction bs generalizing s base with
  | nil => rfl
  | cons b bs ih =>
    by_cases h : base > 0xFFF
    · simp [State.writeFrom, State.memWrite1, h]
    · simp only [State.writeFrom, State.memWrite1, h, if_false]
      exact ih { s with mem := s.mem.write base b } (base + 1)

theorem storeBlock_quiet (s : State) (base : Nat) (bs : List Byte) :
    quietResult (s.quiet.storeBlock base bs) = quietResult (s.storeBlock base bs) := by
  rw [State.storeBlock, State.storeBlock]
  cases checkRange base bs.length with
  | ok => exact writeFrom_quiet s base bs
  | error f => rfl

/-! ### From the meanings up to the step -/

/-- No instruction reads an output. -/
theorem exec_quiet (i : Instr) (s : State) : quietNext (exec i s.quiet) = quietNext (exec i s) := by
  cases i with
  | seVxNn | sneVxNn | seVxVy | sneVxVy => exact congrArg some (skipIf_quiet s _)
  | call nnn => exact quietNext_settle (push_setPc_quiet s s.pc _)
  | ret k => exact quietNext_settle (popPc_quiet s)
  | skp x | sknp x => exact quietNext_settle (quietResult_map rfl fun _ => skipIf_quiet s _)
  | bcd x | str x => exact quietNext_settle (storeBlock_quiet s s.base _)
  | ldr x =>
    exact quietNext_settle (quietResult_map (loadBlock_quiet s s.base _) fun bs => setRegsFrom_quiet s 0 bs)
  | drw x y n => exact quietNext_settle (quietResult_map (loadBlock_quiet s s.base _) fun _ => rfl)
  | ldVxK x =>
    have hk : s.quiet.lowestKey = s.lowestKey := rfl
    show quietNext (execLdVxK x s.quiet) = quietNext (execLdVxK x s)
    rw [execLdVxK, execLdVxK, hk]
    cases s.lowestKey <;> rfl
  | _ => rfl

theorem decodeAndExec_quiet (op : Word) (s : State) :
    quietNext (decodeAndExec op s.quiet) = quietNext (decodeAndExec op s) := by
  rw [decodeAndExec, decodeAndExec]
  cases decode op with
  | some i => exact exec_quiet i s
  | none => rfl

/-- The fetch reads `PC` and memory alone. -/
theorem cpuTick_quiet (s : State) : quietNext (cpuTick s.quiet) = quietNext (cpuTick s) := by
  have hfetch : s.quiet.fetch = s.fetch := rfl
  rw [cpuTick, cpuTick, hfetch]
  cases s.fetch with
  | ok op => exact decodeAndExec_quiet op s.advance
  | error f => rfl

theorem load_quiet (bytes : List Byte) (s : State) : (load bytes s.quiet).quiet = (load bytes s).quiet := by
  refine settlePort_quiet ?_
  split
  · rfl
  · exact writeFrom_quiet s 0x200 bytes

/-- No event reads an output. -/
theorem runEvent_quiet (e : HostEvent) (s : State) : quietNext (runEvent e s.quiet) = quietNext (runEvent e s) := by
  cases e with
  | cpuTick => exact cpuTick_quiet s
  | load bytes => exact congrArg some (load_quiet bytes s)
  | regGet | regSet => exact congrArg some (settlePort_quiet (quietResult_map rfl fun _ => rfl))
  | _ => rfl

/-- A step is the same, up to the outputs, from the state with its outputs cleared. -/
theorem step_quiet (s : State) : quietNext (step s.quiet) = quietNext (step s) :=
  calc quietNext (runEvent s.nextEvent s.quiet.beginEvent)
      = quietNext (runEvent s.nextEvent s.quiet.beginEvent.quiet) := (runEvent_quiet _ _).symm
    _ = quietNext (runEvent s.nextEvent s.beginEvent.quiet) := rfl
    _ = quietNext (runEvent s.nextEvent s.beginEvent) := runEvent_quiet _ _

/-- Settles O53: the two states are one with its outputs cleared, and that one determines both steps up to the outputs. -/
theorem outputsNeverFeedBack : Obligations.OutputsNeverFeedBack := by
  intro s s' t t' hs ht ht'
  rw [sameInputs_iff_quiet] at hs ⊢
  have h : quietNext (step s') = quietNext (step s) := by
    rw [← step_quiet s', hs, step_quiet s]
  rw [ht, ht'] at h
  exact Option.some.inj h

end Sys2Proof.Machine
end

section
/-! The reset state (`10_state.md` R40). -/

namespace Sys2Proof.Machine

/-- Settles O10: reset memory lists no cell. -/
theorem resetMemoryCanonical : Obligations.ResetMemoryCanonical := Memory.wf_nil

/-- Above the font memory's reset contents are 0 (R40). -/
theorem Memory.resetByte_of_ge {a : Nat} (h : 80 ≤ a) : Memory.resetByte a = 0 :=
  List.getD_eq_default fontTable 0 ((by decide : fontTable.length = 80) ▸ h)

/-- Settles O13: row by row of the table of R40; memory reads as its reset contents, the font and 0 above it. -/
theorem resetStateHoldsTableValues : Obligations.ResetStateHoldsTableValues := by
  refine ⟨fun x => ?_, rfl, rfl, rfl, fun j => ?_, rfl, rfl, fun a _ => rfl,
    fun a ha => Memory.resetByte_of_ge ha, blankDisplay_pixel, fun k => ?_, rfl, rfl⟩
  · simp [State.reg, State.reset, Vector.get_eq_getElem]
  · simp [State.reset, Vector.get_eq_getElem]
  · simp [State.key, State.reset, Vector.get_eq_getElem]

end Sys2Proof.Machine
end

section
/-! The canonical form of memory (`20_memory.md` R50, R54, R55): every write to memory is a block that lies inside the
address space, and such a block keeps the form. -/

namespace Sys2Proof.Machine

/-- The canonical form rests on the list of cells alone. -/
theorem MemoryCanonical.congr {s t : State} (h : MemoryCanonical s) (hm : t.mem = s.mem) : MemoryCanonical t := by
  rwa [MemoryCanonical, hm]

/-- From `s` to `t` memory was not written, or one block inside the address space was. -/
def StoredBlock (s t : State) : Prop :=
  t.mem = s.mem ∨ ∃ base bs, base + List.length bs ≤ 0x1000 ∧ t.mem = s.mem.writeList base bs

/-- A block inside the address space keeps the canonical form. -/
theorem StoredBlock.memoryCanonical {s t : State} (h : StoredBlock s t) (hs : MemoryCanonical s) :
    MemoryCanonical t := by
  rcases h with hm | ⟨base, bs, hfit, hm⟩
  · exact hs.congr hm
  · rw [MemoryCanonical, hm]
    exact Memory.wf_writeList hs hfit

/-- BCD and STR store one block where their range check passes; no other instruction writes memory (R58). -/
theorem exec_storedBlock {i : Instr} {s t : State} (h : exec i s = .next t) : StoredBlock s t := by
  cases i with
  | bcd x =>
    rcases execBcd_cases x s with ⟨hb, e⟩ | ⟨-, e⟩
    · cases e.symm.trans h; exact .inr ⟨_, _, hb, rfl⟩
    · cases e.symm.trans h; exact .inl rfl
  | str x =>
    rcases execStr_cases x s with ⟨hb, e⟩ | ⟨-, e⟩
    · cases e.symm.trans h; exact .inr ⟨_, _, by rw [s.length_regsThrough]; omega, rfl⟩
    · cases e.symm.trans h; exact .inl rfl
  | call nnn =>
    rcases execCall_cases nnn s with ⟨_, e⟩ | ⟨-, e⟩ <;> cases e.symm.trans h <;> exact .inl rfl
  | ret k =>
    rcases execRet_cases k s with ⟨_, e⟩ | ⟨-, e⟩ <;> cases e.symm.trans h <;> exact .inl rfl
  | skp x =>
    rcases execSkp_cases x s with ⟨_, e⟩ | ⟨-, e⟩ <;> cases e.symm.trans h <;> exact .inl (by simp)
  | sknp x =>
    rcases execSknp_cases x s with ⟨_, e⟩ | ⟨-, e⟩ <;> cases e.symm.trans h <;> exact .inl (by simp)
  | ldr x =>
    rcases execLdr_cases x s with ⟨-, e⟩ | ⟨-, e⟩ <;> cases e.symm.trans h
    · exact .inl (by rw [State.setRegsFrom_eq])
    · exact .inl rfl
  | drw x y n =>
    rcases execDrw_cases x y n s with ⟨-, e⟩ | ⟨-, -, e⟩ <;> cases e.symm.trans h <;> exact .inl rfl
  | ldVxK x =>
    rcases execLdVxK_cases x s with ⟨_, -, e⟩ | ⟨-, e⟩ <;> cases e.symm.trans h <;> exact .inl rfl
  | seVxNn | sneVxNn | seVxVy | sneVxVy => cases h; exact .inl (by simp)
  | _ => cases h; exact .inl rfl

/-- A tick writes memory by its instruction alone: the fetch and an illegal word write none. -/
theorem cpuTick_storedBlock {s t : State} (h : cpuTick s = .next t) : StoredBlock s t := by
  rw [cpuTick] at h
  cases hf : s.fetch with
  | error f => rw [hf] at h; cases h; exact .inl rfl
  | ok op =>
    rw [hf] at h
    simp only [decodeAndExec] at h
    split at h
    · exact exec_storedBlock (s := s.advance) h
    · cases h; exact .inl rfl

/-- Every event keeps the canonical form: `Reset` empties the list of cells, `Load` stores one block at 0x200, a tick
stores at most one block, and the other ports write no memory. -/
theorem runEvent_memoryCanonical {e : HostEvent} {s t : State} (hs : MemoryCanonical s)
    (h : runEvent e s = .next t) : MemoryCanonical t := by
  cases e with
  | cpuTick => exact (cpuTick_storedBlock h).memoryCanonical hs
  | reset => cases h; exact Memory.wf_nil
  | load bytes =>
    cases h
    rcases load_cases bytes s with ⟨hb, e⟩ | ⟨-, e⟩ <;> rw [e]
    · exact StoredBlock.memoryCanonical (.inr ⟨0x200, bytes, by omega, rfl⟩) hs
    · exact hs.congr rfl
  | regGet n =>
    cases h
    rcases regGet_cases n s with ⟨_, e⟩ | ⟨-, e⟩ <;> rw [e] <;> exact hs.congr rfl
  | regSet n b =>
    cases h
    rcases regSet_cases n b s with ⟨_, e⟩ | ⟨-, e⟩ <;> rw [e] <;> exact hs.congr rfl
  | timerTick | keySet | pixelQuery | pcGet | pcSet | iGet => cases h; exact hs.congr rfl

/-- Settles O9: a step is the host's next event, from a state with the same memory. -/
theorem stepKeepsMemoryCanonical : Obligations.StepKeepsMemoryCanonical :=
  fun s _ hs h => runEvent_memoryCanonical (s := s.beginEvent) (hs.congr rfl) h

end Sys2Proof.Machine
end

section
/-! The footprint of the host's ports (`20_memory.md` R66, `60_exceptions.md` R182 to R188): each event writes its
result and the parts its port has. -/

namespace Sys2Proof.Machine

variable {rs : List Reg} {ps : List Part}

theorem frame_answer (hp : .host ∈ ps) (s : State) (r : Response) : Frame rs ps s (s.answer r) :=
  ⟨fun _ _ => rfl, fun p _ => by cases p <;> simp_all [Part.Same]⟩

theorem frame_raise (hp : .host ∈ ps) (s : State) (f : Fault) (instr : Option Word) :
    Frame rs ps s (s.raise f instr) :=
  (s.faulted_raise f instr).frame hp

/-- Taking an event off the list and clearing the outputs touch the host's part alone. -/
theorem frame_beginEvent (hp : .host ∈ ps) (s : State) : Frame rs ps s s.beginEvent :=
  ⟨fun _ _ => rfl, fun p _ => by cases p <;> simp_all [Part.Same]⟩

theorem frame_keySet (hp : .keys ∈ ps) (k : Key) (b : Bool) (s : State) : Frame rs ps s (keySet k b s) :=
  ⟨fun _ _ => rfl, fun p _ => by cases p <;> simp_all [Part.Same, keySet]⟩

/-- The pulse of a timer tick is an output, which is the host's part (R183). -/
theorem frame_timerTick (hd : .dt ∈ ps) (ht : .st ∈ ps) (hp : .host ∈ ps) (s : State) :
    Frame rs ps s (timerTick s) :=
  ⟨fun _ _ => rfl, fun p _ => by cases p <;> simp_all [Part.Same, timerTick]⟩

/-- A register port with a valid index writes that register. -/
theorem mem_eventRegs_regSet {n : Nat} (h : n < 16) (b : Byte) : ⟨n, h⟩ ∈ eventRegs (.regSet n b) := by
  simp [eventRegs, h]

/-- Every event but a tick and `Reset` stays within its port's footprint. -/
theorem runEvent_frame {e : HostEvent} {s t : State} (hc : e ≠ .cpuTick) (hr : e ≠ .reset)
    (h : runEvent e s = .next t) : Frame (eventRegs e) (.host :: eventParts e) s t := by
  have hhost : Part.host ∈ .host :: eventParts e := List.mem_cons_self
  cases e with
  | cpuTick => exact absurd rfl hc
  | reset => exact absurd rfl hr
  | timerTick => cases h; exact frame_timerTick (by simp [eventParts]) (by simp [eventParts]) hhost s
  | keySet k b => cases h; exact frame_keySet (by simp [eventParts]) k b s
  | pcSet a => cases h; exact frame_setPc (by simp [eventParts]) s a
  | pixelQuery | pcGet | iGet => cases h; exact frame_answer hhost s _
  | load bytes =>
    cases h
    rcases load_cases bytes s with ⟨-, e⟩ | ⟨-, e⟩ <;> rw [e]
    · exact frame_mem (by simp [eventParts]) s _
    · exact frame_raise hhost s _ _
  | regGet n =>
    cases h
    rcases regGet_cases n s with ⟨_, e⟩ | ⟨-, e⟩ <;> rw [e]
    · exact frame_answer hhost s _
    · exact frame_raise hhost s _ _
  | regSet n b =>
    cases h
    rcases regSet_cases n b s with ⟨hn, e⟩ | ⟨-, e⟩ <;> rw [e]
    · exact frame_setReg (mem_eventRegs_regSet hn b) s b
    · exact frame_raise hhost s _ _

/-- Settles O51: taking the event off the list is the host's part, and the event stays within its port's footprint. -/
theorem everyHostEventKeepsItsFootprint : Obligations.EveryHostEventKeepsItsFootprint :=
  fun s _ hc hr h => (frame_beginEvent List.mem_cons_self s).trans (runEvent_frame hc hr h)

end Sys2Proof.Machine
end

section
/-! The word of an instruction decodes to it (`30_encoding.md` R74, R75), from the row each word lies in. -/

namespace Sys2Proof

open Laws.WordInRow in
/-- Every instruction's word lies in a row that reads the instruction back. -/
theorem Laws.wordInRow (i : Instr) : Statement i :=
  match i with
  | .nop k => nop k | .cls k => cls k | .ret k => ret k
  | .jmp nnn => jmp nnn | .call nnn => call nnn | .ldINnn nnn => ldINnn nnn | .jmpV0 nnn => jmpV0 nnn
  | .seVxNn x nn => seVxNn x nn | .sneVxNn x nn => sneVxNn x nn | .ldVxNn x nn => ldVxNn x nn
  | .addVxNn x nn => addVxNn x nn | .rnd x nn => rnd x nn
  | .seVxVy x y => seVxVy x y | .sneVxVy x y => sneVxVy x y | .ldVxVy x y => ldVxVy x y
  | .or x y => or x y | .and x y => and x y | .xor x y => xor x y
  | .addVxVy x y => addVxVy x y | .sub x y => sub x y | .subn x y => subn x y
  | .shr x y => shr x y | .shl x y => shl x y | .drw x y n => drw x y n
  | .skp x => skp x | .sknp x => sknp x | .ldVxDt x => ldVxDt x | .ldVxK x => ldVxK x
  | .ldDtVx x => ldDtVx x | .ldStVx x => ldStVx x | .addIVx x => addIVx x | .ldFVx x => ldFVx x
  | .bcd x => bcd x | .str x => str x | .ldr x => ldr x

/-- The machine's decoder reads every instruction back from its word. -/
theorem decode_encode (i : Instr) : decode (encode i) = some i := by
  obtain ⟨r, hr, hmatch, hbuild⟩ := Laws.wordInRow i
  exact (decodeWith_row hr hmatch).trans (congrArg some hbuild)

end Sys2Proof
end

section
/-! A store is seen by the next fetch (`20_memory.md` R61): what STR stored is what the tick fetches, decodes and
runs. -/

namespace Sys2Proof.Machine

/-- A tick whose word lies in memory and decodes runs that instruction, from the state with the event taken, the outputs
cleared and `PC` advanced (R90 to R92). -/
theorem step_of_decode {s : State} {i : Instr} (he : s.nextEvent = .cpuTick) (hpc : s.pc.toNat < 0xFFF)
    (hd : decode (wordOfBytes (s.mem.read s.pc.toNat) (s.mem.read (s.pc.toNat + 1))) = some i) :
    step s = exec i s.beginEvent.advance := by
  have hf := s.beginEvent.fetch_ok hpc
  rw [step, he]
  simp only [runEvent, cpuTick, hf, decodeAndExec, State.beginEvent_mem, State.beginEvent_pc, hd]

/-- The bytes STR stores read back as the registers it stores (R141). -/
theorem read_writeList_regsThrough {s : State} (hs : MemoryCanonical s) {x k : Reg}
    (hb : s.base + x.val < 0x1000) (hk : k ≤ x) :
    (s.mem.writeList s.base (s.regsThrough x)).read (s.base + k.val) = s.reg k := by
  have hl := s.length_regsThrough x
  have hkx : k.val ≤ x.val := hk
  rw [Memory.read_writeList hs (by omega) (by omega), State.getElem_regsThrough]

/-- Settles O54: the word fetched at `I` is `V[0]`, `V[1]` as stored, which is the instruction's own word. -/
theorem storeIsSeenByNextFetch : Obligations.StoreIsSeenByNextFetch := by
  rintro s t u i hs hb h hw - rfl hev
  rcases execStr_cases 1 s with ⟨hlt, e⟩ | ⟨hge, -⟩
  · cases e.symm.trans h
    have h0 := read_writeList_regsThrough hs hlt (k := 0) (by decide)
    have h1 := read_writeList_regsThrough hs hlt (k := 1) (by decide)
    refine step_of_decode hev (Nat.lt_of_succ_le hb) ?_
    rw [← decode_encode i, ← hw, ← h0, ← h1]
    rfl
  · exact absurd hb (Nat.not_le.2 hge)

end Sys2Proof.Machine
end

section
/-! A word and its fields (`30_encoding.md` R71, R72): a word is the word each format builds from its fields, and what a
row's mask keeps of a word is the major opcode and the minor opcode of the row's format. -/

namespace Sys2Proof

/-- `n1 = op[15:12]`, the major opcode (R71). -/
def fieldN1 (op : Word) : Nibble := op.extractLsb' 12 4

/-! ### A word from its fields -/

theorem formatA_fields (op : Word) : formatA (fieldN1 op) (fieldNnn op) = op :=
  (BitVec.extractLsb'_append_extractLsb'_eq_extractLsb' (by decide)).trans BitVec.extractLsb'_eq_self

theorem formatXB_fields (op : Word) : formatXB (fieldN1 op) (fieldX op) (fieldNn op) = op :=
  (congrArg (fieldN1 op ++ ·)
    (BitVec.extractLsb'_append_extractLsb'_eq_extractLsb' (by decide))).trans (formatA_fields op)

theorem formatXY_fields (op : Word) :
    formatXY (fieldN1 op) (fieldX op) (fieldY op) (fieldN op) = op :=
  (congrArg (fun low : Byte => formatXB (fieldN1 op) (fieldX op) low)
    (BitVec.extractLsb'_append_extractLsb'_eq_extractLsb' (by decide))).trans (formatXB_fields op)

/-! ### The major opcode of the formats -/

theorem fieldN1_formatA (n1 : Nibble) (nnn : Addr12) : fieldN1 (formatA n1 nnn) = n1 :=
  BitVec.extractLsb'_append_eq_left (a := n1) (b := nnn)

theorem fieldN1_formatXB (n1 : Nibble) (x : Reg) (nn : Byte) : fieldN1 (formatXB n1 x nn) = n1 :=
  fieldN1_formatA n1 (regNibble x ++ nn)

theorem fieldN1_formatXY (n1 : Nibble) (x y : Reg) (n4 : Nibble) : fieldN1 (formatXY n1 x y n4) = n1 :=
  fieldN1_formatA n1 (regNibble x ++ (regNibble y ++ n4))

/-! ### What the masks keep -/

theorem and_major (op : Word) : op &&& 0xF000 = formatA (fieldN1 op) 0 := by
  simpa only [formatA_fields] using formatA_major (fieldN1 op) (fieldNnn op)

theorem and_low (op : Word) : op &&& 0xF0FF = formatXB (fieldN1 op) 0 (fieldNn op) := by
  simpa only [formatXB_fields] using formatXB_low (fieldN1 op) (fieldX op) (fieldNn op)

theorem and_minor (op : Word) : op &&& 0xF00F = formatXY (fieldN1 op) 0 0 (fieldN op) := by
  simpa only [formatXY_fields] using formatXY_minor (fieldN1 op) (fieldX op) (fieldY op) (fieldN op)

/-- A word lies in a row of mask F000 exactly when its major opcode is the row's. -/
theorem and_major_eq_iff {op : Word} {n1 : Nibble} :
    op &&& 0xF000 = formatA n1 0 ↔ fieldN1 op = n1 := by
  rw [and_major]
  exact ⟨fun h => by simpa only [fieldN1_formatA] using congrArg fieldN1 h, fun h => by rw [h]⟩

/-- A word lies in a row of mask F0FF exactly when its major opcode and its low byte are the row's. -/
theorem and_low_eq_iff {op : Word} {n1 : Nibble} {nn : Byte} :
    op &&& 0xF0FF = formatXB n1 0 nn ↔ fieldN1 op = n1 ∧ fieldNn op = nn := by
  rw [and_low]
  refine ⟨fun h => ⟨?_, ?_⟩, fun ⟨h1, h2⟩ => by rw [h1, h2]⟩
  · simpa only [fieldN1_formatXB] using congrArg fieldN1 h
  · simpa only [fieldNn_formatXB] using congrArg fieldNn h

/-- A word lies in a row of mask F00F exactly when its major opcode and its nibble 4 are the row's. -/
theorem and_minor_eq_iff {op : Word} {n1 n4 : Nibble} :
    op &&& 0xF00F = formatXY n1 0 0 n4 ↔ fieldN1 op = n1 ∧ fieldN op = n4 := by
  rw [and_minor]
  refine ⟨fun h => ⟨?_, ?_⟩, fun ⟨h1, h2⟩ => by rw [h1, h2]⟩
  · simpa only [fieldN1_formatXY] using congrArg fieldN1 h
  · simpa only [fieldN_formatXY] using congrArg fieldN h

/-! ### The word of a row's format, from a word that lies in the row -/

theorem formatA_of_major {op : Word} {n1 : Nibble} (h : op &&& 0xF000 = formatA n1 0) :
    formatA n1 (fieldNnn op) = op := by
  rw [← and_major_eq_iff.1 h, formatA_fields]

theorem formatXB_of_major {op : Word} {n1 : Nibble} (h : op &&& 0xF000 = formatA n1 0) :
    formatXB n1 (fieldX op) (fieldNn op) = op := by
  rw [← and_major_eq_iff.1 h, formatXB_fields]

theorem formatXY_of_major {op : Word} {n1 : Nibble} (h : op &&& 0xF000 = formatA n1 0) :
    formatXY n1 (fieldX op) (fieldY op) (fieldN op) = op := by
  rw [← and_major_eq_iff.1 h, formatXY_fields]

theorem formatXB_of_low {op : Word} {n1 : Nibble} {nn : Byte} (h : op &&& 0xF0FF = formatXB n1 0 nn) :
    formatXB n1 (fieldX op) nn = op := by
  obtain ⟨h1, h2⟩ := and_low_eq_iff.1 h
  rw [← h1, ← h2, formatXB_fields]

/-- Format Z is format XB with major opcode 0 and nibble 2 in the place of `x`. -/
theorem formatZ_of_low {op : Word} {low : Byte} (h : op &&& 0xF0FF = formatZ 0 low) :
    formatZ (fieldN2 op) low = op :=
  formatXB_of_low h

theorem formatXY_of_minor {op : Word} {n1 n4 : Nibble} (h : op &&& 0xF00F = formatXY n1 0 0 n4) :
    formatXY n1 (fieldX op) (fieldY op) n4 = op := by
  obtain ⟨h1, h4⟩ := and_minor_eq_iff.1 h
  rw [← h1, ← h4, formatXY_fields]

end Sys2Proof
end

section
/-! Decoding and encoding are inverse (`30_encoding.md` R74, R75): a word lies in at most one row, that row's
instruction has the word's own bits, and `STRICT_N2` only drops the instructions that are not well formed under it. -/

namespace Sys2Proof

/-- A word decodes to an instruction exactly when it lies in a row that reads the instruction from it (R74). -/
theorem decodeWith_eq_some_iff {strict : Bool} {op : Word} {i : Instr} :
    decodeWith strict op = some i ↔
      ∃ r ∈ opcodeTable strict, op &&& r.mask = r.value ∧ r.build op = i := by
  constructor
  · intro h
    obtain ⟨r, hfind, hbuild⟩ := Option.map_eq_some_iff.1 h
    exact ⟨r, List.mem_of_find?_eq_some hfind, eq_of_beq (List.find?_some hfind :), hbuild⟩
  · rintro ⟨r, hr, hmatch, rfl⟩
    exact decodeWith_row hr hmatch

/-! ### The word of what a row reads -/

/-- The row reads from each of its words an instruction whose word that is. -/
def Row.ReadsBack (r : Row) : Prop :=
  ∀ op : Word, op &&& r.mask = r.value → encode (r.build op) = op

theorem rowsLow_readsBack : ∀ r ∈ rowsLow false, r.ReadsBack := by
  simp only [rowsLow, List.forall_mem_cons]
  exact ⟨fun _ h => formatZ_of_low h, fun _ h => formatZ_of_low h, fun _ h => formatZ_of_low h,
    fun _ h => formatA_of_major h, fun _ h => formatA_of_major h,
    fun _ h => formatXB_of_major h, fun _ h => formatXB_of_major h, fun _ h => formatXY_of_minor h,
    fun _ h => formatXB_of_major h, fun _ h => formatXB_of_major h,
    List.forall_mem_nil _⟩

theorem rowsAlu_readsBack : ∀ r ∈ rowsAlu, r.ReadsBack := by
  simp only [rowsAlu, List.forall_mem_cons]
  refine ⟨?_, ?_, ?_, ?_, ?_, ?_, ?_, ?_, ?_, List.forall_mem_nil _⟩ <;>
    exact fun _ h => formatXY_of_minor h

theorem rowsHigh_readsBack : ∀ r ∈ rowsHigh, r.ReadsBack := by
  simp only [rowsHigh, List.forall_mem_cons]
  exact ⟨fun _ h => formatXY_of_minor h, fun _ h => formatA_of_major h, fun _ h => formatA_of_major h,
    fun _ h => formatXB_of_major h, fun _ h => formatXY_of_major h, fun _ h => formatXB_of_low h,
    fun _ h => formatXB_of_low h, List.forall_mem_nil _⟩

theorem rowsMisc_readsBack : ∀ r ∈ rowsMisc, r.ReadsBack := by
  simp only [rowsMisc, List.forall_mem_cons]
  refine ⟨?_, ?_, ?_, ?_, ?_, ?_, ?_, ?_, ?_, List.forall_mem_nil _⟩ <;>
    exact fun _ h => formatXB_of_low h

theorem opcodeTable_readsBack : ∀ r ∈ opcodeTable false, r.ReadsBack := by
  simp only [opcodeTable, List.forall_mem_append]
  exact ⟨rowsLow_readsBack, rowsAlu_readsBack, rowsHigh_readsBack, rowsMisc_readsBack⟩

/-- The machine's decoder drops no bit of a word. -/
theorem encode_of_decode {op : Word} {i : Instr} (h : decode op = some i) : encode i = op := by
  obtain ⟨r, hr, hmatch, rfl⟩ := decodeWith_eq_some_iff.1 h
  exact opcodeTable_readsBack r hr op hmatch

/-! ### `STRICT_N2` -/

/-- With `STRICT_N2`, a word of format Z also needs nibble 2 to be 0 (R77). -/
theorem and_zMask_eq_iff {strict : Bool} {op : Word} {low : Byte} :
    op &&& zMask strict = formatZ 0 low ↔
      op &&& 0xF0FF = formatZ 0 low ∧ (!strict || fieldN2 op == 0) = true := by
  cases strict with
  | false => simp [zMask]
  | true =>
    have hall : op &&& zMask true = op := BitVec.and_allOnes
    rw [hall, Bool.not_true, Bool.false_or, beq_iff_eq]
    constructor
    · rintro rfl
      exact ⟨formatZ_low 0 low, fieldN2_formatZ 0 low⟩
    · rintro ⟨h, hk⟩
      rw [← formatZ_of_low h, hk]

/-- The row as it stands in the table under `STRICT_N2`: a row of format Z has the mask `zMask` (R77). -/
def Row.withN2 (strict : Bool) (r : Row) : Row :=
  if r.value &&& 0xF000 = 0 then { r with mask := zMask strict } else r

theorem opcodeTable_eq_map (strict : Bool) :
    opcodeTable strict = (opcodeTable false).map (Row.withN2 strict) := rfl

@[simp] theorem Row.withN2_value (strict : Bool) (r : Row) : (r.withN2 strict).value = r.value := by
  unfold withN2; split <;> rfl

@[simp] theorem Row.withN2_build (strict : Bool) (r : Row) : (r.withN2 strict).build = r.build := by
  unfold withN2; split <;> rfl

/-- Under `STRICT_N2` a row keeps those of its words whose instruction is well formed. -/
def Row.Narrows (strict : Bool) (r : Row) : Prop :=
  ∀ op : Word, op &&& (r.withN2 strict).mask = r.value ↔
    op &&& r.mask = r.value ∧ (r.build op).wellFormedWith strict = true

/-- The rows after the three of format Z do not depend on `STRICT_N2`, and neither do their instructions. -/
theorem rowsWithOperands_narrow (strict : Bool) : ∀ r ∈ (opcodeTable false).drop 3, r.Narrows strict := by
  intro r hr
  fin_cases hr <;> exact fun _ => (and_iff_left rfl).symm

theorem opcodeTable_narrows (strict : Bool) : ∀ r ∈ opcodeTable false, r.Narrows strict :=
  List.forall_mem_cons.2 ⟨fun _ => and_zMask_eq_iff (low := 0x00),
    List.forall_mem_cons.2 ⟨fun _ => and_zMask_eq_iff (low := 0xE0),
      List.forall_mem_cons.2 ⟨fun _ => and_zMask_eq_iff (low := 0xEE), rowsWithOperands_narrow strict⟩⟩⟩

/-- Under `STRICT_N2` a word decodes to what the machine's decoder reads from it, if that is well formed. -/
theorem decodeWith_eq_some_iff_wellFormed {strict : Bool} {op : Word} {i : Instr} :
    decodeWith strict op = some i ↔ decode op = some i ∧ i.wellFormedWith strict = true := by
  rw [decode, strictN2, decodeWith_eq_some_iff, decodeWith_eq_some_iff, opcodeTable_eq_map strict]
  constructor
  · rintro ⟨_, hq, hmatch, rfl⟩
    obtain ⟨r, hr, rfl⟩ := List.mem_map.1 hq
    rw [Row.withN2_value] at hmatch
    obtain ⟨hlax, hwf⟩ := (opcodeTable_narrows strict r hr op).1 hmatch
    rw [Row.withN2_build]
    exact ⟨⟨r, hr, hlax, rfl⟩, hwf⟩
  · rintro ⟨⟨r, hr, hlax, rfl⟩, hwf⟩
    refine ⟨_, List.mem_map_of_mem hr, ?_, by rw [Row.withN2_build]⟩
    rw [Row.withN2_value]
    exact (opcodeTable_narrows strict r hr op).2 ⟨hlax, hwf⟩

/-- Settles O5: the word of every instruction decodes to it, and under `STRICT_N2` too where it is well formed. -/
theorem decodeOfEncode : Obligations.DecodeOfEncode :=
  fun _ i hwf => decodeWith_eq_some_iff_wellFormed.2 ⟨decode_encode i, hwf⟩

/-- Settles O6: the row a word lies in reads from it an instruction with the word's own bits. -/
theorem encodeOfDecode : Obligations.EncodeOfDecode := by
  intro strict op i h
  obtain ⟨hdecode, hwf⟩ := decodeWith_eq_some_iff_wellFormed.1 h
  exact ⟨encode_of_decode hdecode, hwf⟩

/-- Settles O8: each legal word is the word of its instruction, and 0x5121 lies in no row. -/
theorem sampleWordsDecode : Obligations.SampleWordsDecode :=
  ⟨decode_encode (.ldVxNn 0 5), decode_encode (.ldVxNn 1 3), decode_encode (.addVxVy 0 1),
    decode_encode (.nop 0), decode_encode (.nop 0xA), decode_encode (.call 0x300),
    decode_encode (.jmpV0 0x300), decode_encode (.ldINnn 0x2F0), decode_encode (.str 2),
    decode_encode (.drw 0 1 5), decode_encode (.skp 1), decode_encode (.ldVxK 3), by decide⟩

end Sys2Proof
end

section
/-! The illegal words (`30_encoding.md` R78): the words of each part of the opcode table, by the values of their fields as
numbers, so that a word outside all the parts is one of the rule's table. -/

namespace Sys2Proof

/-! ### The fixed fields as numbers -/

theorem toNat_fieldN1 (op : Word) : (fieldN1 op).toNat = op.toNat / 0x1000 := by
  rw [fieldN1, BitVec.extractLsb'_toNat, Nat.shiftRight_eq_div_pow, Nat.mod_eq_of_lt (by omega)]

theorem toNat_fieldNn (op : Word) : (fieldNn op).toNat = op.toNat % 0x100 := by
  rw [fieldNn, BitVec.extractLsb'_toNat, Nat.shiftRight_zero]

theorem toNat_fieldN (op : Word) : (fieldN op).toNat = op.toNat % 0x10 := by
  rw [fieldN, BitVec.extractLsb'_toNat, Nat.shiftRight_zero]

theorem and_major_eq_iff_toNat {op v : Word} (hv : v &&& 0xF000 = v) :
    op &&& 0xF000 = v ↔ op.toNat / 0x1000 = v.toNat / 0x1000 := by
  conv_lhs => rw [← hv, and_major v, and_major_eq_iff]
  rw [← BitVec.toNat_inj, toNat_fieldN1, toNat_fieldN1]

theorem and_low_eq_iff_toNat {op v : Word} (hv : v &&& 0xF0FF = v) :
    op &&& 0xF0FF = v ↔
      op.toNat / 0x1000 = v.toNat / 0x1000 ∧ op.toNat % 0x100 = v.toNat % 0x100 := by
  conv_lhs => rw [← hv, and_low v, and_low_eq_iff]
  rw [← BitVec.toNat_inj, ← BitVec.toNat_inj, toNat_fieldN1, toNat_fieldN1, toNat_fieldNn, toNat_fieldNn]

theorem and_minor_eq_iff_toNat {op v : Word} (hv : v &&& 0xF00F = v) :
    op &&& 0xF00F = v ↔
      op.toNat / 0x1000 = v.toNat / 0x1000 ∧ op.toNat % 0x10 = v.toNat % 0x10 := by
  conv_lhs => rw [← hv, and_minor v, and_minor_eq_iff]
  rw [← BitVec.toNat_inj, ← BitVec.toNat_inj, toNat_fieldN1, toNat_fieldN1, toNat_fieldN, toNat_fieldN]

/-! ### The words of the table's parts -/

/-- A word lies in one of the rows. -/
def InRows (rows : List Row) (op : Word) : Prop := ∃ r ∈ rows, op &&& r.mask = r.value

theorem inRows_nil (op : Word) : ¬ InRows [] op := by simp [InRows]

theorem inRows_cons {r : Row} {rows : List Row} {op : Word} :
    InRows (r :: rows) op ↔ op &&& r.mask = r.value ∨ InRows rows op := by simp [InRows]

theorem inRows_append {rows rows' : List Row} {op : Word} :
    InRows (rows ++ rows') op ↔ InRows rows op ∨ InRows rows' op := by
  simp only [InRows, List.mem_append, or_and_right, exists_or]

/-- A word decodes to nothing exactly when it lies in no row (R78). -/
theorem decodeWith_eq_none_iff {strict : Bool} {op : Word} :
    decodeWith strict op = none ↔ ¬ InRows (opcodeTable strict) op := by
  simp [decodeWith, InRows]

theorem inRows_rowsLow {op : Word} : InRows (rowsLow false) op ↔
    (op.toNat / 0x1000 = 0 ∧ op.toNat % 0x100 ∈ [0x00, 0xE0, 0xEE]) ∨
    op.toNat / 0x1000 ∈ [1, 2, 3, 4] ∨
    (op.toNat / 0x1000 = 5 ∧ op.toNat % 0x10 = 0) ∨
    op.toNat / 0x1000 ∈ [6, 7] := by
  simp (disch := decide) only [rowsLow, zMask, Bool.false_eq_true, if_false, inRows_cons, inRows_nil,
    and_major_eq_iff_toNat, and_low_eq_iff_toNat, and_minor_eq_iff_toNat]
  simp [and_or_left, or_assoc]

theorem inRows_rowsAlu {op : Word} : InRows rowsAlu op ↔
    op.toNat / 0x1000 = 8 ∧ op.toNat % 0x10 ∈ [0, 1, 2, 3, 4, 5, 6, 7, 0xE] := by
  simp (disch := decide) only [rowsAlu, inRows_cons, inRows_nil, and_minor_eq_iff_toNat]
  simp [and_or_left]

theorem inRows_rowsHigh {op : Word} : InRows rowsHigh op ↔
    (op.toNat / 0x1000 = 9 ∧ op.toNat % 0x10 = 0) ∨
    op.toNat / 0x1000 ∈ [0xA, 0xB, 0xC, 0xD] ∨
    (op.toNat / 0x1000 = 0xE ∧ op.toNat % 0x100 ∈ [0x9E, 0xA1]) := by
  simp (disch := decide) only [rowsHigh, inRows_cons, inRows_nil, and_major_eq_iff_toNat,
    and_low_eq_iff_toNat, and_minor_eq_iff_toNat]
  simp [and_or_left, or_assoc]

theorem inRows_rowsMisc {op : Word} : InRows rowsMisc op ↔
    op.toNat / 0x1000 = 0xF ∧
      op.toNat % 0x100 ∈ [0x07, 0x0A, 0x15, 0x18, 0x1E, 0x29, 0x33, 0x55, 0x65] := by
  simp (disch := decide) only [rowsMisc, inRows_cons, inRows_nil, and_low_eq_iff_toNat]
  simp [and_or_left]

/-- Settles O7: for each of the sixteen major opcodes, the words outside the table's parts are those R78 lists. -/
theorem illegalWordsAreTheTable : Obligations.IllegalWordsAreTheTable := by
  intro op
  rw [decodeWith_eq_none_iff, opcodeTable, inRows_append, inRows_append, inRows_append, inRows_rowsLow,
    inRows_rowsAlu, inRows_rowsHigh, inRows_rowsMisc]
  have hmajor : op.toNat / 0x1000 < 0x10 := by omega
  have hminor : op.toNat % 0x10 < 0x10 := by omega
  generalize op.toNat / 0x1000 = n1 at *
  generalize op.toNat % 0x10 = n4 at *
  interval_cases n1 <;> simp
  -- Left is major opcode 8, where both sides list values of nibble 4.
  omega

end Sys2Proof
end

section
/-! The instruction tick and the control transfers (`40_cycle_and_control.md` R90 to R101): each statement is put together
from the row the word lies in, the state the meaning answers, and the frame of the update. -/

namespace Sys2Proof.Machine

/-! ### The tick -/

/-- Settles O1: the state the tick runs the instruction from is the one the event begins in, with `PC` advanced. -/
theorem stepRunsDecodedInstruction : Obligations.StepRunsDecodedInstruction :=
  fun _ _ he hpc hd _ => step_of_decode he hpc hd

/-- A tick whose word does not lie in memory hands the host a fault with `PC` as its address (R91, D8). -/
theorem step_of_fetch_error {s : State} (he : s.nextEvent = .cpuTick) (hpc : 0xFFF ≤ s.pc.toNat) :
    step s = .next (s.beginEvent.raise (.addressOutOfRange s.pc.toNat) (some s.pc)) := by
  have hf := s.beginEvent.fetch_error hpc
  rw [step, he]
  simp only [runEvent, cpuTick, hf, State.beginEvent_pc]

/-- Settles O3: the tick is the fault alone, and a fault leaves the core as the event found it. -/
theorem fetchFaultChangesNothing : Obligations.FetchFaultChangesNothing := by
  intro s he hpc
  obtain ⟨hcore, hdraws, hevents, hbeep, hresponse, hfaults⟩ :=
    s.beginEvent.faulted_raise (.addressOutOfRange s.pc.toNat) (some s.pc)
  exact ⟨_, step_of_fetch_error he hpc, hcore, hresponse, hfaults, hevents, hbeep, hdraws⟩

/-! ### Encodings -/

/-- Every word of a row, which is named by its place in the table, decodes to what the row reads from it (R74). -/
theorem encodes_row (n : Nat) (h : n < (opcodeTable strictN2).length := by decide) :
    Encodes (opcodeTable strictN2)[n].mask (opcodeTable strictN2)[n].value (opcodeTable strictN2)[n].build :=
  fun _ hmatch => decodeWith_row (List.getElem_mem h) hmatch

/-! ### NOP, the jumps and the skips -/

/-- Settles O15: the row's mask leaves nibble 2 out, and NOP answers the state itself. -/
theorem nopDoesNothing : Obligations.NopDoesNothing := ⟨encodes_row 0, fun _ _ => rfl⟩

/-- An address operand is the 12-bit immediate as a number (R73). -/
theorem toNat_addrOperand (nnn : Addr12) : (addrOperand nnn).toNat = nnn.toNat :=
  BitVec.toNat_setWidth_of_le (by decide)

/-- The jump target is the exact sum modulo 4096 (R97, D7). -/
theorem toNat_jumpTarget (v0 : Byte) (nnn : Addr12) :
    (jumpTarget v0 nnn).toNat = (v0.toNat + nnn.toNat) % 4096 := by
  rw [jumpTarget, BitVec.toNat_ofNat]
  omega

/-- Settles O16: JMP is one write of `PC`. -/
theorem jmpWritesPc : Obligations.JmpWritesPc :=
  ⟨encodes_row 3, fun nnn s => ⟨_, rfl, toNat_addrOperand nnn, frame_setPc (by simp) s _⟩⟩

/-- Settles O17: JMP V0+nnn is one write of `PC`. -/
theorem jmpV0WritesMaskedSum : Obligations.JmpV0WritesMaskedSum :=
  ⟨encodes_row 21, fun nnn s => ⟨_, rfl, toNat_jumpTarget (s.reg 0) nnn, frame_setPc (by simp) s _⟩⟩

/-- An instruction that is a skip on a test adds 2 to `PC` exactly where what the test decides holds. -/
theorem skips_iff {i : Instr} {s : State} {c : Bool} {p : Prop} [Decidable p]
    (h : exec i s = .next (s.skipIf c)) (hc : c = true ↔ p) :
    ∃ t, exec i s = .next t ∧ t.pc = (if p then s.pc + 2 else s.pc) ∧ Frame [] [.pc] s t := by
  refine ⟨_, h, ?_, frame_skipIf (by simp) s c⟩
  simp only [State.skipIf_eq, State.setPc_pc, hc]

/-- Settles O18: each skip's test decides its condition. -/
theorem registerSkips : Obligations.RegisterSkips :=
  ⟨encodes_row 5, encodes_row 6, encodes_row 7, encodes_row 19, fun _ _ _ _ =>
    ⟨skips_iff rfl beq_iff_eq, skips_iff rfl bne_iff_ne, skips_iff rfl beq_iff_eq, skips_iff rfl bne_iff_ne⟩⟩

/-! ### CALL and RET -/

/-- Settles O19: with an entry free CALL does not fault, and its push writes the one entry at the old `SP`. -/
theorem callPushesReturnAddress : Obligations.CallPushesReturnAddress := by
  refine ⟨encodes_row 4, fun nnn s hs => ?_⟩
  rcases execCall_cases nnn s with ⟨_, e⟩ | ⟨hfull, -⟩
  · refine ⟨_, e, rfl, fun j => ?_, toNat_addrOperand nnn, frame_call (by simp) (by simp) s _ _ _⟩
    simp only [Vector.get_eq_getElem, Vector.getElem_set, eq_comm]
  · omega

/-- Settles O20: with an entry in use RET does not fault, and the entry it reads is the one below the old `SP`. -/
theorem retPopsReturnAddress : Obligations.RetPopsReturnAddress := by
  refine ⟨encodes_row 2, fun k s hs => ?_⟩
  rcases execRet_cases k s with ⟨_, e⟩ | ⟨hempty, -⟩
  · refine ⟨_, e, Nat.sub_add_cancel hs, rfl, fun j hj => ?_, frame_call (by simp) (by simp) s _ s.stack _⟩
    exact congrArg s.stack.get (Fin.ext (by show s.sp.val - 1 = j.val; omega))
  · omega

/-- Settles O22: the entry RET pops is the one CALL pushed, at the depth CALL started from. -/
theorem callThenRetRestoresPc : Obligations.CallThenRetRestoresPc := by
  intro nnn k a s t hs h
  obtain ⟨t', h', hsp, hstack, -, -⟩ := callPushesReturnAddress.2 nnn s hs
  cases h.symm.trans h'
  obtain ⟨u, hu, husp, -, hupc, hframe⟩ := retPopsReturnAddress.2 k (t.setPc a) (by simp [hsp])
  have hpc : u.pc = t.stack.get ⟨s.sp.val, hs⟩ := hupc ⟨s.sp.val, hs⟩ hsp.symm
  have hdepth : u.sp = s.sp := Fin.ext (Nat.succ.inj (husp.trans hsp))
  refine ⟨u, hu, ?_, hdepth, (frame_setPc (by simp) t a).trans hframe⟩
  rw [hpc, hstack, if_pos rfl]

end Sys2Proof.Machine
end

section
/-! The register loads and the ALU (`41_alu.md` R110 to R123): each statement is put together from the row the word lies
in, the one update the meaning answers, the exact value of the byte it writes, and the frame of the update. -/

namespace Sys2Proof.Machine

/-! ### The values written -/

theorem toNat_sumByte (a b : Byte) : (sumByte a b).toNat = (a.toNat + b.toNat) % 256 := BitVec.toNat_ofNat _ _

theorem toNat_diffByte (a b : Byte) :
    (diffByte a b).toNat = if b.toNat ≤ a.toNat then a.toNat - b.toNat else a.toNat + 256 - b.toNat := by
  rw [diffByte, BitVec.toNat_ofNat]
  have ha := a.isLt
  have hb := b.isLt
  split <;> omega

theorem toNat_shiftRight (a : Byte) : (shiftRight a).toNat = a.toNat / 2 := by
  rw [shiftRight, BitVec.toNat_ofNat]
  have ha := a.isLt
  omega

theorem toNat_shiftLeft (a : Byte) : (shiftLeft a).toNat = a.toNat * 2 % 256 := BitVec.toNat_ofNat _ _

/-- The carry flag is the condition of R116. -/
theorem carryFlag_iff (a b : Byte) : carryFlag a b = true ↔ 256 ≤ a.toNat + b.toNat := decide_eq_true_iff

/-- The flag of a subtraction is the condition of R117. -/
theorem noBorrowFlag_iff (a b : Byte) : noBorrowFlag a b = true ↔ b.toNat ≤ a.toNat := decide_eq_true_iff

/-! ### One register written -/

theorem State.reg_setReg_same (s : State) (x : Reg) (b : Byte) : (s.setReg x b).reg x = b := by
  rw [State.reg_setReg, if_pos rfl]

/-- Settles O23: each is one write of `V[x]`, of the operand or of the sum modulo 256. -/
theorem registerLoadsAndImmediateAdd : Obligations.RegisterLoadsAndImmediateAdd := by
  refine ⟨encodes_row 8, encodes_row 9, encodes_row 10, fun x y nn s => ⟨?ld, ?add, ?copy⟩⟩
  case ld => exact ⟨_, rfl, s.reg_setReg_same x nn, frame_setReg (by simp) s _⟩
  case add =>
    refine ⟨_, rfl, ?_, frame_setReg (by simp) s _⟩
    rw [State.reg_setReg_same, toNat_sumByte]
  case copy => exact ⟨_, rfl, s.reg_setReg_same x (s.reg y), frame_setReg (by simp) s _⟩

/-- Settles O24: each is one write of `V[x]`, so that `VF` is kept unless it is `V[x]`. -/
theorem bitwiseOperations : Obligations.BitwiseOperations := by
  refine ⟨encodes_row 11, encodes_row 12, encodes_row 13, fun x y s => ⟨?or, ?and, ?xor⟩⟩
  case or =>
    refine ⟨_, rfl, frame_setReg (by simp) s _, fun b => ?_⟩
    rw [State.reg_setReg_same, BitVec.getLsbD_or]
  case and =>
    refine ⟨_, rfl, frame_setReg (by simp) s _, fun b => ?_⟩
    rw [State.reg_setReg_same, BitVec.getLsbD_and]
  case xor =>
    refine ⟨_, rfl, frame_setReg (by simp) s _, fun b => ?_⟩
    rw [State.reg_setReg_same, BitVec.getLsbD_xor]

/-- Settles O29: the draw moves the counter alone, and the byte drawn goes to `V[x]` through the mask. -/
theorem rndMasksTheDraw : Obligations.RndMasksTheDraw := by
  refine ⟨encodes_row 22, fun x nn s => ⟨_, rfl, fun b => ?_, rfl, ?_⟩⟩
  · rw [State.reg_setReg_same, State.draw8_fst, BitVec.getLsbD_and]
  · exact (frame_draw8 (by simp) s).trans (frame_setReg (by simp) _ _)

/-! ### A result and its flag -/

/-- The result stays in `V[x]` unless `x` is 15. -/
theorem State.reg_setWithFlag_result (s : State) {x : Reg} (hx : x ≠ flagReg) (b : Byte) (f : Bool) :
    (s.setWithFlag x b f).reg x = b := by
  rw [State.setWithFlag_eq, State.reg_setFlag, if_neg hx, State.reg_setReg_same]

/-- The flag is written last, so `V[15]` holds it whatever `x` is (R123, D12). -/
theorem State.reg_setWithFlag_flag (s : State) (x : Reg) (b : Byte) (f : Bool) :
    (s.setWithFlag x b f).reg flagReg = flagByte f :=
  State.reg_setReg_same _ _ _

/-- An instruction that writes a result and then a flag leaves the result in `V[x]` unless `x` is 15, and in `V[15]`
the flag, 1 where what it decides holds. -/
theorem setsFlag_iff {i : Instr} {s : State} {x : Reg} {b : Byte} {f : Bool} {v : Nat} {p : Prop} [Decidable p]
    (h : exec i s = .next (s.setWithFlag x b f)) (hb : b.toNat = v) (hf : f = true ↔ p) :
    ∃ t, exec i s = .next t ∧ (x ≠ 15 → (t.reg x).toNat = v) ∧ t.reg 15 = (if p then 1 else 0) ∧
      Frame [x, 15] [] s t := by
  have hflag : flagByte f = if p then 1 else 0 := by simp only [flagByte, hf]
  refine ⟨_, h, fun hx => ?_, (s.reg_setWithFlag_flag x b f).trans hflag, ?_⟩
  · rw [s.reg_setWithFlag_result hx, hb]
  · exact frame_setWithFlag (by simp) (by simp [flagReg]) s b f

/-- Settles O25: the flag is the carry out of the exact sum. -/
theorem addSetsCarry : Obligations.AddSetsCarry :=
  ⟨encodes_row 14, fun _ _ _ => setsFlag_iff rfl (toNat_sumByte _ _) (carryFlag_iff _ _)⟩

/-- Settles O26: the flag decides the case of the difference. -/
theorem subSetsNoBorrow : Obligations.SubSetsNoBorrow :=
  ⟨encodes_row 15, fun _ _ _ => setsFlag_iff rfl (toNat_diffByte _ _) (noBorrowFlag_iff _ _)⟩

/-- Settles O27: as SUB, with the operands of the difference and of the flag exchanged. -/
theorem subnSetsNoBorrow : Obligations.SubnSetsNoBorrow :=
  ⟨encodes_row 17, fun _ _ _ => setsFlag_iff rfl (toNat_diffByte _ _) (noBorrowFlag_iff _ _)⟩

/-- Settles O28: the result and the flag are read from `V[x]` alone, and the flag is the bit itself. -/
theorem shiftsSetBitOut : Obligations.ShiftsSetBitOut :=
  ⟨encodes_row 16, encodes_row 18, fun _ _ _ =>
    ⟨setsFlag_iff rfl (toNat_shiftRight _) Iff.rfl, setsFlag_iff rfl (toNat_shiftLeft _) Iff.rfl⟩⟩

end Sys2Proof.Machine
end

section
/-! The address register and the timers (`42_index_and_timers.md` R130 to R135): each statement is put together from the
row the word lies in, the one update the meaning answers, the exact value of the word it writes, and the frame of the
update. -/

namespace Sys2Proof.Machine

/-! ### The address register -/

theorem toNat_indexSum (i : Word) (b : Byte) : (indexSum i b).toNat = (i.toNat + b.toNat) % 65536 :=
  BitVec.toNat_ofNat _ _

/-- The whole register is multiplied (R132, D25): the product is at most 1275, so that no bit of it is lost. -/
theorem toNat_glyphAddress (b : Byte) : (glyphAddress b).toNat = b.toNat * 5 := by
  rw [glyphAddress, BitVec.toNat_ofNat]
  have hb := b.isLt
  omega

/-- Settles O30: each is one write of `I`, of the operand or of the sum modulo 65536. -/
theorem indexLoadAndAdd : Obligations.IndexLoadAndAdd := by
  refine ⟨encodes_row 20, encodes_row 30, fun nnn x s => ⟨?ld, ?add⟩⟩
  case ld => exact ⟨_, rfl, toNat_addrOperand nnn, frame_setI (by simp) s _⟩
  case add => exact ⟨_, rfl, toNat_indexSum s.i (s.reg x), frame_setI (by simp) s _⟩

/-- Settles O31: LD F,Vx is one write of `I`, of the model's own `glyphAddress`, whose name is therefore taken. -/
theorem ldFVx_glyphAddress : Obligations.GlyphAddress :=
  ⟨encodes_row 31, fun x s => ⟨_, rfl, toNat_glyphAddress (s.reg x), frame_setI (by simp) s _⟩⟩

/-! ### The timers -/

/-- The level follows the sound timer: it is on exactly where the timer is not 0 (R39). -/
theorem State.soundActive_iff (s : State) : s.soundActive = true ↔ s.st ≠ 0 := bne_iff_ne

/-- Settles O32: the read is one write of `V[x]`, and its frame keeps the timer; the other is one write of the timer. -/
theorem delayTimerAccess : Obligations.DelayTimerAccess := by
  refine ⟨encodes_row 26, encodes_row 28, fun x s => ⟨?read, ?write⟩⟩
  case read => exact ⟨_, rfl, s.reg_setReg_same x s.dt, frame_setReg (by simp) s _⟩
  case write => exact ⟨_, rfl, s.setDt_dt (s.reg x), frame_setDt (by simp) s _⟩

/-- Settles O33: LD ST,Vx is one write of the timer the level follows. -/
theorem soundTimerWrite : Obligations.SoundTimerWrite :=
  ⟨encodes_row 29, fun x s =>
    ⟨_, rfl, s.setSt_st (s.reg x), State.soundActive_iff (s.setSt (s.reg x)), frame_setSt (by simp) s _⟩⟩

end Sys2Proof.Machine
end

section
/-! BCD, STR and LDR (`43_memory_ops.md` R140 to R143): the range check decides between the one block stored or loaded,
byte by byte, and the fault with the block's last address. -/

namespace Sys2Proof.Machine

/-! ### The bytes of a block -/

/-- The digits are exact: no bit of one is lost in its byte (R140). -/
theorem map_toNat_bcdDigits (b : Byte) :
    (bcdDigits b).map BitVec.toNat = [b.toNat / 100, b.toNat / 10 % 10, b.toNat % 10] := by
  have hb := b.isLt
  simp only [bcdDigits, List.map_cons, List.map_nil, BitVec.toNat_ofNat, List.cons.injEq, and_true]
  omega

/-- The bytes BCD stores read back as the digits. -/
theorem toNat_read_writeList_bcdDigits {m : Memory} (hm : Memory.wf m) {base k : Nat} (hfit : base + 3 ≤ 0x1000)
    (hk : k < 3) (b : Byte) :
    ((m.writeList base (bcdDigits b)).read (base + k)).toNat =
      [b.toNat / 100, b.toNat / 10 % 10, b.toNat % 10][k] := by
  rw [Memory.read_writeList hm hfit hk]
  exact (List.getElem_map BitVec.toNat).symm.trans (List.getElem_of_eq (map_toNat_bcdDigits b) hk)

/-- A register after LDR's load: the byte at its own distance from the base up to `V[x]`, the old value above (R142). -/
theorem State.reg_setRegsFrom_zero (s : State) (x k : Reg) (f : Nat → Byte) :
    (s.setRegsFrom 0 ((List.range (x.val + 1)).map f)).reg k = if k ≤ x then f k.val else s.reg k := by
  simp [State.reg_setRegsFrom]

/-! ### The instructions -/

/-- Settles O34: the block is the three digits, and every byte outside it is kept. -/
theorem bcdStoresDigits : Obligations.BcdStoresDigits := by
  refine ⟨encodes_row 32, fun x s hs => ?_⟩
  rcases execBcd_cases x s with ⟨hfit, e⟩ | ⟨hout, e⟩
  · have digit {k : Nat} (hk : k < 3) := toNat_read_writeList_bcdDigits hs hfit hk (s.reg x)
    exact ⟨fun _ => ⟨_, e, digit (k := 0) (by decide), digit (by decide), digit (by decide),
      fun _ ha => s.mem.read_writeList_other ha, frame_mem (by simp) s _⟩, fun _ => by omega⟩
  · exact ⟨fun _ => by omega, fun _ => ⟨_, e, s.faulted_raise _ _⟩⟩

/-- Settles O35: the block is `V[0]` to `V[x]`, and every byte outside it is kept. -/
theorem strStoresRegisters : Obligations.StrStoresRegisters := by
  refine ⟨encodes_row 33, fun x s hs => ?_⟩
  rcases execStr_cases x s with ⟨hfit, e⟩ | ⟨hout, e⟩
  · have hl := s.length_regsThrough x
    exact ⟨fun _ => ⟨_, e, fun k hk => read_writeList_regsThrough hs hfit hk,
      fun _ ha => s.mem.read_writeList_other (by omega), frame_mem (by simp) s _⟩, fun _ => by omega⟩
  · exact ⟨fun _ => by omega, fun _ => ⟨_, e, s.faulted_raise _ _⟩⟩

/-- Settles O36: the load writes `V[0]` to `V[x]`, which are general registers, and no other part of the state. -/
theorem ldrLoadsRegisters : Obligations.LdrLoadsRegisters := by
  refine ⟨encodes_row 34, fun x s => ?_⟩
  rcases execLdr_cases x s with ⟨hfit, e⟩ | ⟨hout, e⟩
  · exact ⟨fun _ => ⟨_, e, fun k => s.reg_setRegsFrom_zero x k _,
      frame_setRegsFrom s 0 _ fun r _ _ => List.mem_finRange r⟩, fun _ => by omega⟩
  · exact ⟨fun _ => by omega, fun _ => ⟨_, e, s.faulted_raise _ _⟩⟩

end Sys2Proof.Machine
end

section
/-! CLS and DRW (`44_display.md` R150 to R152): a drawn sprite is one plot after another of bits that land on different
pixels, so that what it did to the buffer and whether it collided can be read from the pixels its 1 bits land on. -/

namespace Sys2Proof.Machine

/-! ### Flipping a set of pixels -/

/-- From `g` to `g'` exactly the pixels `lit` were flipped, and the collision was noted if one of them was on. -/
structure Flips (lit : Fin 32 → Fin 64 → Prop) (g g' : Drawing) : Prop where
  flipped : ∀ row col, lit row col → g'.disp.pixel row col = !g.disp.pixel row col
  kept : ∀ row col, ¬ lit row col → g'.disp.pixel row col = g.disp.pixel row col
  collision : g'.collision = true ↔
    g.collision = true ∨ ∃ row col, lit row col ∧ g.disp.pixel row col = true

variable {lit lit' : Fin 32 → Fin 64 → Prop} {g g' g'' : Drawing}

theorem Flips.congr (h : Flips lit g g') (e : ∀ row col, lit row col ↔ lit' row col) : Flips lit' g g' := by
  have : lit = lit' := funext fun row => funext fun col => propext (e row col)
  exact this ▸ h

theorem Flips.refl (g : Drawing) : Flips (fun _ _ => False) g g where
  flipped _ _ h := h.elim
  kept _ _ _ := rfl
  collision := by simp

/-- Two sets without a common pixel are flipped one after the other: the second finds its pixels as the first did. -/
theorem Flips.trans (h : Flips lit g g') (h' : Flips lit' g' g'') (hd : ∀ row col, lit row col → ¬ lit' row col) :
    Flips (fun row col => lit row col ∨ lit' row col) g g'' where
  flipped row col hl := by
    rcases hl with hl | hl
    · rw [h'.kept _ _ (hd _ _ hl), h.flipped _ _ hl]
    · rw [h'.flipped _ _ hl, h.kept _ _ fun hl' => hd _ _ hl' hl]
  kept row col hl := by
    obtain ⟨hl, hl'⟩ := not_or.1 hl
    rw [h'.kept _ _ hl', h.kept _ _ hl]
  collision := by
    have hsame : ∀ row col, lit' row col → g'.disp.pixel row col = g.disp.pixel row col :=
      fun _ _ hl => h.kept _ _ fun hl' => hd _ _ hl' hl
    have hseen : (∃ row col, lit' row col ∧ g'.disp.pixel row col = true) ↔
        ∃ row col, lit' row col ∧ g.disp.pixel row col = true :=
      exists_congr fun row => exists_congr fun col => and_congr_right fun hl => by rw [hsame row col hl]
    rw [h'.collision, h.collision, hseen]
    simp only [or_and_right, exists_or, or_assoc]

/-- One sprite bit flips its own pixel if it is 1, and nothing if it is 0. -/
theorem flips_plot (g : Drawing) (row : Fin 32) (col : Fin 64) (bit : Bool) :
    Flips (fun row' col' => (row' = row ∧ col' = col) ∧ bit = true) g (g.plot row col bit) where
  flipped row' col' h := by simp [Drawing.pixel_plot, h]
  kept row' col' h := by
    have : (decide (row' = row ∧ col' = col) && bit) = false := by simpa using h
    rw [Drawing.pixel_plot, this, Bool.xor_false]
  collision := by cases bit <;> simp

/-- Steps whose pixels are different flip together the pixels of them all. -/
theorem flips_foldl_range {f : Drawing → Nat → Drawing} {lit : Nat → Fin 32 → Fin 64 → Prop}
    (hf : ∀ g k, Flips (lit k) g (f g k)) (g : Drawing) (n : Nat)
    (hd : ∀ j k row col, j < n → k < n → lit j row col → lit k row col → j = k) :
    Flips (fun row col => ∃ k < n, lit k row col) g ((List.range n).foldl f g) := by
  induction n with
  | zero => exact (Flips.refl g).congr (by simp)
  | succ n ih =>
    rw [List.range_succ, List.foldl_append]
    have hn := ih fun j k row col hj hk => hd j k row col (by omega) (by omega)
    refine (hn.trans (hf _ n) ?_).congr fun row col => Nat.exists_lt_succ_right.symm
    rintro row col ⟨k, hk, hl⟩ hl'
    have := hd k n row col (by omega) (by omega) hl hl'
    omega

/-! ### The pixels of a sprite -/

/-- Up to 64 columns from one on are different. -/
theorem spriteCol_inj {px : Byte} {c c' : Nat} (hc : c < 64) (hc' : c' < 64)
    (h : spriteCol px c = spriteCol px c') : c = c' := by
  have : (px.toNat + c) % 64 = (px.toNat + c') % 64 := congrArg Fin.val h
  omega

/-- Up to 32 rows from one on are different. -/
theorem spriteRow_inj {py : Byte} {r r' : Nat} (hr : r < 32) (hr' : r' < 32)
    (h : spriteRow py r = spriteRow py r') : r = r' := by
  have : (py.toNat + r) % 32 = (py.toNat + r') % 32 := congrArg Fin.val h
  omega

/-- A 1 bit of line `r`, whose byte is `b`, lands on this pixel (R151). -/
def LineLights (px py : Byte) (r : Nat) (b : Byte) (row : Fin 32) (col : Fin 64) : Prop :=
  ∃ c < 8, (row = spriteRow py r ∧ col = spriteCol px c) ∧ b.getLsbD (7 - c) = true

/-- A sprite line flips the pixels its 1 bits land on: the 8 columns are different. -/
theorem flips_line (g : Drawing) (px py : Byte) (r : Nat) (b : Byte) :
    Flips (LineLights px py r b) g (g.line px py r b) := by
  refine flips_foldl_range (fun g c => flips_plot g (spriteRow py r) (spriteCol px c) _) g 8 ?_
  rintro c c' row col hc hc' ⟨⟨-, e⟩, -⟩ ⟨⟨-, e'⟩, -⟩
  exact spriteCol_inj (by omega) (by omega) (e.symm.trans e')

/-- The lines of consecutive bytes are drawn one after the other. -/
theorem Drawing.lines_map_range' (g : Drawing) (px py : Byte) (f : Nat → Byte) (r n : Nat) :
    g.lines px py r ((List.range' r n).map f) =
      (List.range' r n).foldl (fun g r => g.line px py r (f r)) g := by
  induction n generalizing g r with
  | zero => rfl
  | succ n ih =>
    rw [List.range'_succ, List.map_cons, Drawing.lines, ih, List.foldl_cons]

/-- A whole sprite flips the pixels its lines light: up to 32 rows are different. -/
theorem flips_drawSprite (d : Display) (px py : Byte) (f : Nat → Byte) {n : Nat} (hn : n ≤ 32) :
    Flips (fun row col => ∃ r < n, LineLights px py r (f r) row col) ⟨d, false⟩
      (drawSprite d px py ((List.range n).map f)) := by
  rw [drawSprite, List.range_eq_range', Drawing.lines_map_range', ← List.range_eq_range']
  refine flips_foldl_range (fun g r => flips_line g px py r (f r)) _ n ?_
  rintro r r' row col hr hr' ⟨-, -, ⟨e, -⟩, -⟩ ⟨-, -, ⟨e', -⟩, -⟩
  exact spriteRow_inj (by omega) (by omega) (e.symm.trans e')

/-- The pixels a sprite lights are those of its lines, whose bytes are the ones at `I`. -/
theorem spriteLights_iff (s : State) (px py : Byte) (n : Nat) (row : Fin 32) (col : Fin 64) :
    SpriteLights s px py n row col ↔
      ∃ r < n, LineLights px py r (s.mem.read (s.base + r)) row col := by
  simp only [SpriteLights, LineLights, spriteRow, spriteCol, Fin.ext_iff, and_assoc, exists_and_left]

/-- Drawing the `n` bytes at `I` flips the pixels that sprite lights (R151). -/
theorem flips_spriteLights (s : State) (px py : Byte) {n : Nat} (hn : n ≤ 32) :
    Flips (SpriteLights s px py n) ⟨s.disp, false⟩
      (drawSprite s.disp px py ((List.range n).map fun k => s.mem.read (s.base + k))) :=
  (flips_drawSprite s.disp px py _ hn).congr fun row col => (spriteLights_iff s px py n row col).symm

/-- The pixels a sprite lights depend on memory and `I` alone. -/
theorem spriteLights_congr {s t : State} (hmem : Part.mem.Same s t) (hi : Part.i.Same s t) :
    SpriteLights t = SpriteLights s := by
  have hbase : t.base = s.base := congrArg BitVec.toNat hi
  funext px py n row col
  simp only [SpriteLights, hbase, hmem _]

/-! ### The instructions -/

/-- Settles O37: the row's mask leaves nibble 2 out, and CLS is one write of the buffer. -/
theorem clsClearsDisplay : Obligations.ClsClearsDisplay :=
  ⟨encodes_row 1, fun _ s => ⟨_, rfl, blankDisplay_pixel, frame_disp (by simp) s _⟩⟩

/-- The flag is written last, so `V[15]` holds the collision (R151, D12). -/
theorem State.reg_setDrawing_flag (s : State) (g : Drawing) :
    (s.setDrawing g).reg flagReg = flagByte g.collision :=
  State.reg_setReg_same _ _ _

theorem flagByte_eq_one_iff (f : Bool) : flagByte f = 1 ↔ f = true := by
  cases f <;> simp [flagByte]

theorem flagByte_eq_zero_or_one (f : Bool) : flagByte f = 0 ∨ flagByte f = 1 := by
  cases f <;> simp [flagByte]

/-- Settles O38: a sprite that fits flips the pixels it lights, and the range check faults on any other but the empty
one. -/
theorem drwDrawsSprite : Obligations.DrwDrawsSprite := by
  refine ⟨encodes_row 23, fun x y n s => ?_⟩
  rcases execDrw_cases x y n s with ⟨hfit, e⟩ | ⟨h0, hout, e⟩
  · have hdraw := flips_spriteLights s (s.reg x) (s.reg y) (n := n.toNat) (by omega)
    refine ⟨fun _ => ⟨_, e, hdraw.flipped, hdraw.kept, ?flag, ?bit,
      frame_setDrawing (by simp) (by simp [flagReg]) s _⟩, fun _ _ => by omega⟩
    case flag =>
      rw [← flagReg, s.reg_setDrawing_flag, flagByte_eq_one_iff, hdraw.collision]
      simp
    case bit => exact s.reg_setDrawing_flag _ ▸ flagByte_eq_zero_or_one _
  · refine ⟨fun hfit => ?_, fun _ _ => ⟨_, e, s.faulted_raise _ _⟩⟩
    rcases hfit with rfl | hfit
    · cases h0
    · omega

/-- Settles O39: the second draw lights the pixels the first did, so that each is flipped back, and it finds lit those
the first found dark. -/
theorem secondDrawRestoresDisplay : Obligations.SecondDrawRestoresDisplay := by
  intro x y n a s t hfit h hx hy
  obtain ⟨t', h', tflip, tkeep, -, -, -, tparts⟩ := (drwDrawsSprite.2 x y n s).1 hfit
  cases h.symm.trans h'
  have hi : (t.setPc a).i = s.i := tparts .i (by simp)
  have hlights : SpriteLights (t.setPc a) ((t.setPc a).reg x) ((t.setPc a).reg y) =
      SpriteLights s (s.reg x) (s.reg y) := by
    rw [spriteLights_congr (t := t.setPc a) (tparts .mem (by simp)) hi, t.reg_setPc, t.reg_setPc, hx, hy]
  have hbase : (t.setPc a).base = s.base := congrArg BitVec.toNat hi
  obtain ⟨u, hu, uflip, ukeep, uflag, -, -⟩ := (drwDrawsSprite.2 x y n (t.setPc a)).1 (hbase ▸ hfit)
  rw [hlights, t.setPc_disp] at uflip ukeep uflag
  refine ⟨u, hu, Display.ext_pixel fun row col => ?restored, uflag.trans ?flag⟩
  case restored =>
    by_cases hl : SpriteLights s (s.reg x) (s.reg y) n.toNat row col
    · rw [uflip _ _ hl, tflip _ _ hl, Bool.not_not]
    · rw [ukeep _ _ hl, tkeep _ _ hl]
  case flag =>
    refine exists_congr fun row => exists_congr fun col => and_congr_right fun hl => ?_
    rw [tflip _ _ hl, Bool.not_eq_true']

end Sys2Proof.Machine
end

section
/-! The keypad (`45_keypad.md` R160 to R162): the skips test the one key `V[x]` names, and the key wait either writes the
least key down or takes back the advance of the fetch, so that a whole tick of it changes nothing. -/

namespace Sys2Proof.Machine

/-! ### The key wait -/

/-- The key wait writes the least key that is down (R162). -/
theorem execLdVxK_of_least {s : State} {k : Key} (hk : s.key k = true) (hlow : ∀ j : Key, j < k → s.key j = false)
    (x : Reg) : execLdVxK x s = .next (s.setReg x (BitVec.ofNat 8 k.val)) := by
  rw [execLdVxK, (s.lowestKey_some k).2 ⟨hk, hlow⟩]

/-- The key wait rewinds `PC` when no key is down (R162). -/
theorem execLdVxK_of_none {s : State} (hup : ∀ k : Key, s.key k = false) (x : Reg) :
    execLdVxK x s = .next s.rewind := by
  rw [execLdVxK, s.lowestKey_none.2 hup]

/-- The rewind takes back the advance of the fetch, also where the advance wraps at 2^16 (R24, R162). -/
theorem State.rewind_advance (s : State) : s.advance.rewind = s :=
  congrArg s.setPc (BitVec.add_sub_cancel s.pc 2)

/-- Settles O43: the tick advances `PC` and the key wait rewinds it, so that all it leaves is the event begun, which
takes the event and clears the outputs. -/
theorem keyWaitTickChangesNothing : Obligations.KeyWaitTickChangesNothing := by
  intro x s he hpc hword hup
  have hdecode : decode (s.mem.read s.pc.toNat ++ s.mem.read (s.pc.toNat + 1)) = some (.ldVxK x) :=
    hword ▸ decode_encode _
  have hstep : step s = .next s.beginEvent := calc
    step s = execLdVxK x s.beginEvent.advance := step_of_decode he hpc hdecode
    _ = .next s.beginEvent.advance.rewind := execLdVxK_of_none (s := s.beginEvent.advance) hup x
    _ = .next s.beginEvent := by rw [State.rewind_advance]
  exact ⟨_, hstep, by simp [CoreEq], rfl, rfl, rfl⟩

/-- Settles O42: the scan finds the least key, whose index fits a byte, or none. -/
theorem keyWaitScansAscending : Obligations.KeyWaitScansAscending := by
  refine ⟨encodes_row 27, fun x s => ⟨fun k hk hlow => ?down, fun hup => ?up⟩⟩
  case down =>
    refine ⟨_, execLdVxK_of_least hk hlow x, ?_, frame_setReg (by simp) s _⟩
    rw [State.reg_setReg_same, BitVec.toNat_ofNat]
    omega
  case up => exact ⟨_, execLdVxK_of_none hup x, rfl, frame_setPc (by simp) s _⟩

/-! ### The key skips -/

/-- Settles O40: the index passes the check, and each skip's test is the state of that key. -/
theorem keySkips : Obligations.KeySkips := by
  refine ⟨encodes_row 24, encodes_row 25, fun x k s hk => ?_⟩
  have hindex (h : (s.reg x).toNat < 16) : ⟨(s.reg x).toNat, h⟩ = k := Fin.ext hk
  constructor
  · rcases execSkp_cases x s with ⟨h, e⟩ | ⟨hbig, -⟩
    · exact skips_iff (hindex h ▸ e) Iff.rfl
    · omega
  · rcases execSknp_cases x s with ⟨h, e⟩ | ⟨hbig, -⟩
    · exact skips_iff (hindex h ▸ e) (iff_of_eq (Bool.not_eq_true' _))
    · omega

/-- Settles O41: the index fails the check, and the fault is raised on the state each skip started from. -/
theorem keySkipsFaultOnInvalidIndex : Obligations.KeySkipsFaultOnInvalidIndex := by
  intro x s hx
  constructor
  · rcases execSkp_cases x s with ⟨hsmall, -⟩ | ⟨-, e⟩
    · omega
    · exact ⟨_, e, s.faulted_raise _ _⟩
  · rcases execSknp_cases x s with ⟨hsmall, -⟩ | ⟨-, e⟩
    · omega
    · exact ⟨_, e, s.faulted_raise _ _⟩

end Sys2Proof.Machine
end

section
/-! Faults and the host's events (`60_exceptions.md` R170 to R188): a fault is raised on the state its phase started
from, and an event's step is its port's update of the state in which the event begins. -/

namespace Sys2Proof.Machine

/-! ### The faults of an instruction -/

/-- Settles O52: the own effect leaves the fault marks, which are the host's part, alone; the own fault is raised on the
state the instruction started from. -/
theorem executeFaultsArePrecise : Obligations.ExecuteFaultsArePrecise := by
  intro i s t h
  rcases exec_endsWithin h with ⟨-, hparts⟩ | ⟨f, hf, rfl⟩
  · obtain ⟨-, -, -, hfaults⟩ := hparts .host (by simp)
    exact .inl hfaults
  · exact .inr ⟨f, hf, s.faulted_raise f _⟩

/-- Settles O21: at either end of the stack only the fault is left of what CALL and RET can do. -/
theorem stackFaults : Obligations.StackFaults := by
  intro s
  constructor
  · intro hfull nnn
    rcases execCall_cases nnn s with ⟨hroom, -⟩ | ⟨-, e⟩
    · omega
    · exact ⟨_, e, s.faulted_raise _ _⟩
  · intro hempty k
    rcases execRet_cases k s with ⟨hused, -⟩ | ⟨-, e⟩
    · omega
    · exact ⟨_, e, s.faulted_raise _ _⟩

/-- A tick whose word lies in memory and matches no row hands the host a fault, with `PC` advanced and the fetched
address as the instruction's (R92, R173). -/
theorem step_of_decode_none {s : State} (he : s.nextEvent = .cpuTick) (hpc : s.pc.toNat < 0xFFF)
    (hd : decode (wordOfBytes (s.mem.read s.pc.toNat) (s.mem.read (s.pc.toNat + 1))) = none) :
    step s = .next (s.beginEvent.advance.raise
      (.unsupportedOpcode (wordOfBytes (s.mem.read s.pc.toNat) (s.mem.read (s.pc.toNat + 1)))) (some s.pc)) := by
  have hf := s.beginEvent.fetch_ok hpc
  have hback : s.beginEvent.advance.pc - 2 = s.pc := BitVec.add_sub_cancel s.pc 2
  rw [step, he]
  simp only [runEvent, cpuTick, hf, decodeAndExec, State.beginEvent_mem, State.beginEvent_pc, hd,
    State.raiseExec_eq, hback]

/-- Settles O2: the event begun, the advance of `PC` and the fault each keep within the frame. -/
theorem illegalWordFaultsAndAdvances : Obligations.IllegalWordFaultsAndAdvances := by
  rintro s op he hpc rfl hd
  exact ⟨_, step_of_decode_none he hpc hd, rfl, rfl, rfl, rfl, rfl,
    ((frame_beginEvent (by simp) s).trans (frame_setPc (by simp) _ _)).trans (frame_raise (by simp) _ _ _)⟩

/-! ### The timers -/

/-- A step is the next event, run from the state in which it begins. -/
theorem step_of_event {s : State} {e : HostEvent} (he : s.nextEvent = e) : step s = runEvent e s.beginEvent := by
  rw [step, he]

/-- One count takes 1 from a timer and stops at 0, as subtraction on natural numbers does (R182). -/
theorem toNat_countDown (b : Byte) : (countDown b).toNat = b.toNat - 1 := by
  unfold countDown
  split
  · next h => rw [h]; rfl
  · bv_omega

/-- Settles O44: each timer is counted down once, and the pulse and the result are outputs. -/
theorem timerTickCountsDown : Obligations.TimerTickCountsDown :=
  fun s he => ⟨_, step_of_event he, toNat_countDown s.dt, toNat_countDown s.st, rfl, rfl, rfl, rfl,
    (frame_beginEvent (by simp) s).trans (frame_timerTick (by simp) (by simp) (by simp) _)⟩

theorem beepCondition_leaving1_iff (b : Byte) : beepCondition .leaving1 b = true ↔ b.toNat = 1 :=
  beq_iff_eq.trans BitVec.toNat_inj.symm

theorem beepCondition_reaching1_iff (b : Byte) : beepCondition .reaching1 b = true ↔ b.toNat = 2 :=
  beq_iff_eq.trans BitVec.toNat_inj.symm

/-- Settles O45: the machine's parameter is `leaving1`, and the tick tests the timer as the event found it. -/
theorem beepOnLeavingOne : Obligations.BeepOnLeavingOne :=
  fun s he => ⟨beepCondition_reaching1_iff s.st, _, step_of_event he, beepCondition_leaving1_iff s.st⟩

/-! ### The keypad and the pixel buffer -/

/-- A key line read after a key line is set. -/
theorem key_keySet (k : Key) (b : Bool) (s : State) (j : Key) :
    (keySet k b s).key j = if j = k then b else s.key j := by
  simp only [State.key, keySet, Vector.get_eq_getElem, Vector.getElem_set, Fin.ext_iff, eq_comm]

/-- Settles O46: `KeySet` is one write of the key lines. -/
theorem keySetSetsOneLine : Obligations.KeySetSetsOneLine :=
  fun s k b he => ⟨_, step_of_event he, key_keySet k b s.beginEvent, rfl, rfl,
    (frame_beginEvent (by simp) s).trans (frame_keySet (by simp) k b _)⟩

/-- The linear buffer is the rows one after the other (R153). -/
theorem Display.linear_eq_flatten (d : Display) : d.linear = (Vector.flatten d).toList := by
  simp [Display.linear, Vector.flatten, Vector.toList, List.flatMap, Function.comp_def]

theorem Display.length_linear (d : Display) : d.linear.length = 2048 := by
  rw [d.linear_eq_flatten, Vector.length_toList]

/-- The linear buffer is row-major: a row is 64 pixels, so that `row` and `col` are the quotient and the remainder of a
pixel's index by 64 (R153). -/
theorem Display.getElem?_linear (d : Display) (row : Fin 32) (col : Fin 64) :
    d.linear[row.val * 64 + col.val]? = some (d.pixel row col) := by
  have hrow : (row.val * 64 + col.val) / 64 = row.val := by omega
  have hcol : (row.val * 64 + col.val) % 64 = col.val := by omega
  have hlt : row.val * 64 + col.val < 32 * 64 := by omega
  rw [d.linear_eq_flatten, Vector.getElem?_toList, Vector.getElem?_eq_getElem hlt, Vector.getElem_flatten]
  simp only [hrow, hcol, Display.pixel, Vector.get_eq_getElem]

/-- Settles O47: the answer is the linear buffer, and an answer is an output. -/
theorem pixelQueryReturnsRowMajor : Obligations.PixelQueryReturnsRowMajor :=
  fun s he => ⟨_, s.disp.linear, step_of_event he, rfl, s.disp.length_linear, s.disp.getElem?_linear, rfl,
    (frame_beginEvent (by simp) s).trans (frame_answer (by simp) _ _)⟩

/-! ### The register port -/

theorem CoreEq.trans {s t u : State} (h : CoreEq s t) (h' : CoreEq t u) : CoreEq s u := by
  simp_all [CoreEq]

/-- An event that only answers a value leaves the core alone (R188). -/
theorem coreEq_beginEvent_answer (s : State) (r : Response) : CoreEq s (s.beginEvent.answer r) := by
  simp [CoreEq]

/-- An event that is a fault leaves the core alone (R178). -/
theorem coreEq_beginEvent_raise (s : State) (f : Fault) (instr : Option Word) :
    CoreEq s (s.beginEvent.raise f instr) := by
  simp [CoreEq]

/-- The first listed event is next. -/
theorem nextEvent_of_events {s : State} {e : HostEvent} {es : List HostEvent} (h : s.events = e :: es) :
    s.nextEvent = e := by
  rw [State.nextEvent, h]
  rfl

theorem step_regSet {s : State} {n : Nat} {b : Byte} (he : s.nextEvent = .regSet n b) (hn : n < 16) :
    step s = .next (s.beginEvent.setReg ⟨n, hn⟩ b) := by
  rcases regSet_cases n b s.beginEvent with ⟨_, e⟩ | ⟨hbig, -⟩
  · exact (step_of_event he).trans (congrArg _ e)
  · omega

theorem step_regSet_fault {s : State} {n : Nat} {b : Byte} (he : s.nextEvent = .regSet n b) (hn : 15 < n) :
    step s = .next (s.beginEvent.raise (.invalidRegisterIndex n) none) := by
  rcases regSet_cases n b s.beginEvent with ⟨hsmall, -⟩ | ⟨-, e⟩
  · omega
  · exact (step_of_event he).trans (congrArg _ e)

theorem step_regGet {s : State} {n : Nat} (he : s.nextEvent = .regGet n) (hn : n < 16) :
    step s = .next (s.beginEvent.answer (.byte (s.reg ⟨n, hn⟩))) := by
  rcases regGet_cases n s.beginEvent with ⟨_, e⟩ | ⟨hbig, -⟩
  · exact (step_of_event he).trans (congrArg _ e)
  · omega

theorem step_regGet_fault {s : State} {n : Nat} (he : s.nextEvent = .regGet n) (hn : 15 < n) :
    step s = .next (s.beginEvent.raise (.invalidRegisterIndex n) none) := by
  rcases regGet_cases n s.beginEvent with ⟨hsmall, -⟩ | ⟨-, e⟩
  · omega
  · exact (step_of_event he).trans (congrArg _ e)

/-- Settles O49: what `RegSet` wrote is what `RegGet` answers, or both events are a fault, which keeps the core; `PcSet`
is one write of `PC`, and `PcGet` and `IGet` only answer. -/
theorem registerPort : Obligations.RegisterPort := by
  refine fun s n b a => ⟨fun hev => ⟨fun hn => ?valid, fun hn => ?invalid⟩, fun he => ?pcSet, fun he => ?pcGet,
    fun he => ?iGet⟩
  case valid =>
    have hreg := s.beginEvent.reg_setReg_same ⟨n, hn⟩ b
    exact ⟨_, _, step_regSet (nextEvent_of_events hev) hn, hreg,
      (frame_beginEvent (by simp) s).trans (frame_setReg (by simp) _ b),
      step_regGet (nextEvent_of_events (congrArg List.tail hev)) hn, congrArg Response.byte hreg,
      coreEq_beginEvent_answer _ _⟩
  case invalid =>
    have hset := coreEq_beginEvent_raise s (.invalidRegisterIndex n) none
    exact ⟨_, _, step_regSet_fault (nextEvent_of_events hev) hn, hset, rfl,
      step_regGet_fault (nextEvent_of_events (congrArg List.tail hev)) hn,
      hset.trans (coreEq_beginEvent_raise _ _ _), rfl⟩
  case pcSet =>
    exact ⟨_, step_of_event he, rfl, rfl, (frame_beginEvent (by simp) s).trans (frame_setPc (by simp) _ a)⟩
  case pcGet => exact ⟨_, step_of_event he, rfl, coreEq_beginEvent_answer s _⟩
  case iGet => exact ⟨_, step_of_event he, rfl, coreEq_beginEvent_answer s _⟩

end Sys2Proof.Machine
end

section
/-! Reset and load (`70_reset_and_hazards.md` R200, R206): `Reset` leaves the core of the reset state, and `Load` stores
one block at 0x200 or is a fault. -/

namespace Sys2Proof.Machine

/-! ### Reset -/

/-- What `Reset` keeps is the model's own, the draws, the events and the fault marks, and no value of the table of R40
reads it. -/
theorem resetValues_hostReset (s : State) : ResetValues (hostReset s) := resetStateHoldsTableValues

/-- Settles O14: whatever the state, the event leaves the reset state's core and outputs. -/
theorem resetEventRestoresTableValues : Obligations.ResetEventRestoresTableValues :=
  fun s he => ⟨_, step_of_event he, resetValues_hostReset s.beginEvent, rfl⟩

/-! ### Load -/

theorem step_load {s : State} {bytes : List Byte} (he : s.nextEvent = .load bytes) (hfit : bytes.length ≤ 3584) :
    step s = .next { s.beginEvent with mem := s.mem.writeList 0x200 bytes } := by
  rcases load_cases bytes s.beginEvent with ⟨-, e⟩ | ⟨hlong, -⟩
  · exact (step_of_event he).trans (congrArg _ e)
  · omega

theorem step_load_fault {s : State} {bytes : List Byte} (he : s.nextEvent = .load bytes)
    (hlong : 3584 < bytes.length) :
    step s = .next (s.beginEvent.raise (.addressOutOfRange bytes.length) none) := by
  rcases load_cases bytes s.beginEvent with ⟨hfit, -⟩ | ⟨-, e⟩
  · omega
  · exact (step_of_event he).trans (congrArg _ e)

/-- Settles O48: an image that fits is one block inside the address space, which reads back byte by byte and leaves the
bytes outside it; a longer one is a fault, which keeps the core. -/
theorem loadWritesImage : Obligations.LoadWritesImage := by
  refine fun s bytes hs he => ⟨fun hfit => ?fits, fun hlong => ?long⟩
  case fits =>
    have hblock : 0x200 + bytes.length ≤ 0x1000 := by omega
    exact ⟨_, step_load he hfit, fun _ hk => Memory.read_writeList hs hblock hk,
      fun _ ha => s.mem.read_writeList_other ha, rfl, rfl,
      (frame_beginEvent (by simp) s).trans (frame_mem (by simp) _ _)⟩
  case long => exact ⟨_, step_load_fault he hlong, coreEq_beginEvent_raise s _ _, rfl, rfl⟩

end Sys2Proof.Machine
end
